-- ==== Sys2Proof/Word.lean ====
section
/-! DEFINITION. The widths that rule R11 fixes: bytes, 16-bit words, the one-bit fields and the
`mod`, `reg`/`rm` fields. Only the types stand here; every conversion is in Machine/Bits.lean. -/

namespace Sys2Proof

/-- A byte of the input buffer (R11, `u8`); also the raw pattern of a signed byte (`i8`). -/
abbrev Byte := BitVec 8

/-- A 16-bit value (R11, `u16`); also the raw pattern of a signed 16-bit value (`i16`). -/
abbrev Word := BitVec 16

/-- A one-bit opcode field: `d`, `w` or `s` (R47, `u1`). -/
abbrev Bit := BitVec 1

/-- The two-bit field `mod` (R48). -/
abbrev ModCode := BitVec 2

/-- A three-bit field `reg` or `rm` (R48). -/
abbrev RegCode := BitVec 3

end Sys2Proof
end

