-- ==== Sys2Proof/Syntax.lean ====
section
/-! DEFINITION. The instruction syntax: one constructor of `Instr` per row of spec/opcode_table.json,
with the operands its encoding carries, and the families, sub-forms and operations the classifier names. -/

namespace Sys2Proof

/-- The register-or-memory operand fields of an instruction with a mod-reg-rm byte: `mod`, `rm` and the
displacement (R48, R57). `disp` is the 16-bit pattern of the signed displacement, 0 when absent (R61). -/
structure RmField where
  mod : ModCode
  rm : RegCode
  disp : Word
  deriving DecidableEq, Repr

/-- The common fields of R18 and R57: what the common field decoder returns, and what a record keeps. -/
structure Common where
  mod : ModCode
  reg : RegCode
  rm : RegCode
  disp : Word
  deriving DecidableEq, Repr

/-- The sub-forms of the Move family (R18). -/
inductive MoveForm where
  | regMemReg
  | immToReg
  | immToRegMem
  | memToAcc
  | accToMem
  deriving DecidableEq, Repr

/-- The sub-forms of the Arithmetic family (R18). -/
inductive ArithForm where
  | regMemReg
  | immToRegMem
  | immToAcc
  deriving DecidableEq, Repr

/-- The operations of the Arithmetic family (R18). -/
inductive ArithOp where
  | add
  | sub
  | cmp
  deriving DecidableEq, Repr

/-- What the classifier reads from the first byte (R51). -/
inductive OpClass where
  | move (form : MoveForm)
  | arithRegMemReg (op : ArithOp)
  | arithImmToAcc (op : ArithOp)
  | arithImmToRegMem
  | jcc
  | loop
  deriving DecidableEq, Repr

/-- One decoded instruction. Each constructor is one row of the opcode table; its docstring names the
first bytes and the rule. -/
inductive Instr where
  /-- 88-8B, R82. -/
  | movRmReg (d w : Bit) (reg : RegCode) (x : RmField)
  /-- 8C, R83. -/
  | movSegStore (reg : RegCode) (x : RmField)
  /-- 8E, R84. -/
  | movSegLoad (reg : RegCode) (x : RmField)
  /-- B0-BF, R85. -/
  | movRegImm (w : Bit) (reg : RegCode) (imm : Word)
  /-- C6-C7, R86; `reg` is carried by the encoding and never checked (R70). -/
  | movRmImm (w : Bit) (reg : RegCode) (x : RmField) (imm : Word)
  /-- A0-A1, R87. -/
  | movMemToAcc (w : Bit) (addr : Word)
  /-- A2-A3, R88. -/
  | movAccToMem (w : Bit) (addr : Word)
  /-- 00-03, R90. -/
  | addRmReg (d w : Bit) (reg : RegCode) (x : RmField)
  /-- 28-2B, R91. -/
  | subRmReg (d w : Bit) (reg : RegCode) (x : RmField)
  /-- 38-3B, R92. -/
  | cmpRmReg (d w : Bit) (reg : RegCode) (x : RmField)
  /-- 80-83 with reg = 000, R95. -/
  | addRmImm (s w : Bit) (x : RmField) (imm : Word)
  /-- 80-83 with reg = 101, R96. -/
  | subRmImm (s w : Bit) (x : RmField) (imm : Word)
  /-- 80-83 with reg = 111, R97. -/
  | cmpRmImm (s w : Bit) (x : RmField) (imm : Word)
  /-- 04-05, R98. -/
  | addAccImm (w : Bit) (imm : Word)
  /-- 2C-2D, R99. -/
  | subAccImm (w : Bit) (imm : Word)
  /-- 3C-3D, R100. -/
  | cmpAccImm (w : Bit) (imm : Word)
  /-- 70, R118. -/
  | jo (rel8 : Byte)
  /-- 71, R119. -/
  | jno (rel8 : Byte)
  /-- 72, R120. -/
  | jb (rel8 : Byte)
  /-- 73, R121. -/
  | jnb (rel8 : Byte)
  /-- 74, R122. -/
  | jz (rel8 : Byte)
  /-- 75, R123. -/
  | jnz (rel8 : Byte)
  /-- 76, R124. -/
  | jbe (rel8 : Byte)
  /-- 77, R125. -/
  | ja (rel8 : Byte)
  /-- 78, R126. -/
  | js (rel8 : Byte)
  /-- 79, R127. -/
  | jns (rel8 : Byte)
  /-- 7A, R128. -/
  | jp (rel8 : Byte)
  /-- 7B, R129. -/
  | jnp (rel8 : Byte)
  /-- 7C, R130. -/
  | jl (rel8 : Byte)
  /-- 7D, R131. -/
  | jnl (rel8 : Byte)
  /-- 7E, R132. -/
  | jle (rel8 : Byte)
  /-- 7F, R133. -/
  | jg (rel8 : Byte)
  /-- E0, R135. -/
  | loopnz (rel8 : Byte)
  /-- E1, R136. -/
  | loopz (rel8 : Byte)
  /-- E2, R137. -/
  | loop (rel8 : Byte)
  /-- E3, R138. -/
  | jcxz (rel8 : Byte)
  deriving DecidableEq, Repr

end Sys2Proof
end

