-- ==== Sys2Proof/Machine/Bits.lean ====
section
/-! DEFINITION. The bit-field, extension and byte-order helpers of rule R12, and the length rules R62
and R63 that only read bit fields. -/

namespace Sys2Proof.Machine

/-- `b[k]` as a one-bit field (R12). -/
def bitAt (b : Byte) (k : Nat) : Bit := b.extractLsb' k 1

/-- `sext_16(v)` (R12). -/
def sext16 (v : Byte) : Word := v.signExtend 16

/-- `zext_16(v)` (R12). -/
def zext16 (v : Byte) : Word := v.setWidth 16

/-- `hi ++ lo`: two consecutive bytes, the low byte at the lower offset (R12, R30). -/
def le16 (lo hi : Byte) : Word := hi ++ lo

/-- The low byte of a 16-bit value, the first of the two in the stream (R30). -/
def loByte (v : Word) : Byte := v.extractLsb' 0 8

/-- The high byte of a 16-bit value, the second of the two in the stream (R30). -/
def hiByte (v : Word) : Byte := v.extractLsb' 8 8

/-- `asSigned16(v)`: the two's-complement reading (R12). -/
def asSigned16 (v : Word) : Int := v.toInt

/-- `asUnsigned16` of the value whose 16-bit pattern is `v` (R12). -/
def asUnsigned16 (v : Word) : Nat := v.toNat

/-- The two's-complement reading of a byte, -128..127 (R33). -/
def asSigned8 (v : Byte) : Int := v.toInt

/-- The field `mod` of a mod-reg-rm byte (R48). -/
def modOf (m : Byte) : ModCode := m.extractLsb' 6 2

/-- The field `reg` of a mod-reg-rm byte (R48). -/
def regOf (m : Byte) : RegCode := m.extractLsb' 3 3

/-- The field `rm` of a mod-reg-rm byte (R48). -/
def rmOf (m : Byte) : RegCode := m.extractLsb' 0 3

/-- The mod-reg-rm byte with the given fields (R48). -/
def modRegRm (mod : ModCode) (reg rm : RegCode) : Byte := mod ++ reg ++ rm

/-- `dispLen(mod, rm)` (R62). -/
def dispLen (mod : ModCode) (rm : RegCode) : Nat :=
  if mod = 0b01#2 then 1
  else if mod = 0b10#2 then 2
  else if mod = 0b00#2 ∧ rm = 0b110#3 then 2
  else 0

/-- Whether the immediate has two bytes, for the forms whose immediate follows `w` (R63). -/
def wideW (w : Bit) : Bool := w = 1#1

/-- Whether the immediate of the 80-83 group has two bytes: only when s = 0#1 and w = 1#1 (R63). -/
def wideSW (s w : Bit) : Bool := s = 0#1 && w = 1#1

/-- The length of an immediate read with `readU16OrU8(wide)` (R63, R64). -/
def immLen (wide : Bool) : Nat := if wide then 2 else 1

end Sys2Proof.Machine

namespace Sys2Proof

/-- The fields of the r/m operand among the common fields. -/
def Common.rmField (c : Common) : RmField := ⟨c.mod, c.rm, c.disp⟩

/-- The common fields of an instruction with the r/m operand `x` and the field `reg`. -/
def RmField.common (x : RmField) (reg : RegCode) : Common := ⟨x.mod, reg, x.rm, x.disp⟩

end Sys2Proof
end

