-- ==== Sys2Proof/Machine/Error.lean ====
section
/-! DEFINITION. The error values of the block (R147, R152). -/

namespace Sys2Proof.Machine

/-- An error with its payload (R152). Raising one is an outcome of the block, not a fault of the model
(R160). -/
inductive Err where
  /-- Code 1: a read of `needed` bytes at `readOffset` passes the end of the buffer (R149). -/
  | underrun (instrOffset readOffset needed available : Nat)
  /-- Code 2: the first byte is none of the 70 accepted ones (R148). -/
  | unsupportedOpcode (offset : Nat) (byte : Byte)
  /-- Code 3: the 80-83 group with a `reg` that names no operation (R150). -/
  | invalidOperation (instrOffset : Nat) (opcode : Byte) (reg : RegCode)
  /-- Code 4: never raised (R151); kept so that the code table of R147 is whole. -/
  | invalidAddressingMode (instrOffset : Nat)
  deriving DecidableEq, Repr

end Sys2Proof.Machine
end

