-- ==== Sys2Proof/Machine/Memory.lean ====
section
/-! DEFINITION. The input buffer's bytes as plain data: address and byte pairs in one canonical form.
The buffer is the block's only memory (R27). No step writes it (R16): `Memory.write` serves `load` alone. -/

namespace Sys2Proof.Machine

/-- The bytes of the input buffer (R27), as cells in the form of `Memory.wf`. -/
abbrev Memory := List Host.Cell

/-- What an unlisted address reads as. DESIGN CHOICE (log entry 4): a fixed byte; every offset below `len`
was written by `load`, so the choice is only how a zero byte of the buffer is stored. -/
def Memory.unlisted : Byte := 0x00#8

/-- The byte at offset `a` (R28). -/
def Memory.read : Memory → Nat → Byte
  | [], _ => Memory.unlisted
  | (b, v) :: m, a => if a = b then v else Memory.read m a

/-- The cells with the byte at `a` replaced, in canonical form. -/
def Memory.write : Memory → Nat → Byte → Memory
  | [], a, v => if v = Memory.unlisted then [] else [(a, v)]
  | (b, u) :: m, a, v =>
    if a < b then (if v = Memory.unlisted then (b, u) :: m else (a, v) :: (b, u) :: m)
    else if a = b then (if v = Memory.unlisted then m else (a, v) :: m)
    else (b, u) :: Memory.write m a v

/-- The cells with consecutive bytes stored from `a` on. -/
def Memory.writeBytes (m : Memory) (a : Nat) : List Byte → Memory
  | [] => m
  | v :: vs => Memory.writeBytes (m.write a v) (a + 1) vs

/-- The buffer latched by `load(bytes)`: `bytes` from offset 0 on (R161). -/
def Memory.ofBytes (bytes : List Byte) : Memory := Memory.writeBytes [] 0 bytes

/-- The `n` bytes from offset `a` on. -/
def Memory.slice (m : Memory) (a : Nat) : Nat → List Byte
  | 0 => []
  | n + 1 => m.read a :: Memory.slice m (a + 1) n

/-- Every address of the cells is at least `lo`, the addresses rise strictly, and no cell holds the
unlisted byte. -/
def Memory.wfFrom : Nat → Memory → Bool
  | _, [] => true
  | lo, (a, v) :: m => lo ≤ a && v ≠ Memory.unlisted && Memory.wfFrom (a + 1) m

/-- The canonical form: addresses strictly rising, no cell equal to what an unlisted address reads as. -/
def Memory.wf (m : Memory) : Bool := Memory.wfFrom 0 m

/-- Every listed address is below `n`: the buffer has `n` bytes (R28). -/
def Memory.below (n : Nat) (m : Memory) : Bool := m.all fun c => c.1 < n

end Sys2Proof.Machine
end

