-- ==== Sys2Proof/Machine/Cursor.lean ====
section
/-! DEFINITION. The Cursor: `MemRead` and the read primitives of rules R29 to R36, over the buffer, its
length and the current offset. A failing read answers the error it raises and no cursor, so that it
consumes nothing (R36). -/

namespace Sys2Proof.Machine

/-- The cursor inside one step: the buffer, its length, the offset `start` of the instruction's first
byte (for the payload of R149) and the current offset. -/
structure Cursor where
  buf : Memory
  len : Nat
  start : Nat
  off : Nat
  deriving DecidableEq, Repr

/-- The cursor `n` bytes further on (R36). -/
def Cursor.advance (c : Cursor) (n : Nat) : Cursor := { c with off := c.off + n }

/-- The Underrun that a read of `n` bytes at offset `a` raises, with the payload of R149. -/
def Cursor.underrunAt (c : Cursor) (a n : Nat) : Err := .underrun c.start a n (c.len - a)

/-- `MemRead(a, 1)` (R29). -/
def Cursor.memRead8 (c : Cursor) (a : Nat) : Except Err Byte :=
  if a + 1 > c.len then .error (c.underrunAt a 1) else .ok (c.buf.read a)

/-- `MemRead(a, 2)`, little-endian (R29, R30). -/
def Cursor.memRead16 (c : Cursor) (a : Nat) : Except Err Word :=
  if a + 2 > c.len then .error (c.underrunAt a 2)
  else .ok (le16 (c.buf.read a) (c.buf.read (a + 1)))

/-- `peek(n, exact)` (R31): up to `n` bytes from the current offset, which does not change. -/
def Cursor.peek (c : Cursor) (n : Nat) (exact : Bool) : Except Err (List Byte) :=
  if exact ∧ c.off + n > c.len then .error (c.underrunAt c.off n)
  else .ok (c.buf.slice c.off (min (c.off + n) c.len - c.off))

/-- `readU8()` (R32). -/
def Cursor.readU8 (c : Cursor) : Except Err (Byte × Cursor) := do
  let v ← c.memRead8 c.off
  .ok (v, c.advance 1)

/-- `readI8()` (R33): the byte, to be read as `asSigned8`. -/
def Cursor.readI8 (c : Cursor) : Except Err (Byte × Cursor) := do
  let v ← c.memRead8 c.off
  .ok (v, c.advance 1)

/-- `readU16()` (R34). -/
def Cursor.readU16 (c : Cursor) : Except Err (Word × Cursor) := do
  let v ← c.memRead16 c.off
  .ok (v, c.advance 2)

/-- `readU16OrU8(wide)` (R35). -/
def Cursor.readU16OrU8 (c : Cursor) (wide : Bool) : Except Err (Word × Cursor) :=
  if wide then c.readU16
  else do
    let (v, c) ← c.readU8
    .ok (zext16 v, c)

end Sys2Proof.Machine
end

