-- ==== Sys2Proof/WellFormed.lean ====
section
/-! DEFINITION. Which terms of `Instr` stand for an encoding: the displacement agrees with `mod` and
`rm` (R58 to R61), and a one-byte immediate fits in one byte (R63, R64). -/

namespace Sys2Proof

open Machine

/-- The displacement is one its encoding can carry: a sign-extended byte for mod = 01 (R58), any 16 bits
for mod = 10 and for the direct address (R59, R60), and 0 otherwise (R61). -/
def RmField.wf (x : RmField) : Bool :=
  if x.mod = 0b01#2 then x.disp = sext16 (loByte x.disp)
  else if dispLen x.mod x.rm = 2 then true
  else x.disp = 0#16

/-- The immediate fits the bytes its encoding carries (R64): a one-byte immediate is 0..255. -/
def immFits (wide : Bool) (imm : Word) : Bool := wide || imm.toNat < 256

/-- The instruction is one that an encoding of the spec stands for. -/
def Instr.wf : Instr → Bool
  | .movRmReg _ _ _ x => x.wf
  | .movSegStore _ x => x.wf
  | .movSegLoad _ x => x.wf
  | .movRegImm w _ imm => immFits (wideW w) imm
  | .movRmImm w _ x imm => x.wf && immFits (wideW w) imm
  | .movMemToAcc _ _ => true
  | .movAccToMem _ _ => true
  | .addRmReg _ _ _ x => x.wf
  | .subRmReg _ _ _ x => x.wf
  | .cmpRmReg _ _ _ x => x.wf
  | .addRmImm s w x imm => x.wf && immFits (wideSW s w) imm
  | .subRmImm s w x imm => x.wf && immFits (wideSW s w) imm
  | .cmpRmImm s w x imm => x.wf && immFits (wideSW s w) imm
  | .addAccImm w imm => immFits (wideW w) imm
  | .subAccImm w imm => immFits (wideW w) imm
  | .cmpAccImm w imm => immFits (wideW w) imm
  | .jo _ => true
  | .jno _ => true
  | .jb _ => true
  | .jnb _ => true
  | .jz _ => true
  | .jnz _ => true
  | .jbe _ => true
  | .ja _ => true
  | .js _ => true
  | .jns _ => true
  | .jp _ => true
  | .jnp _ => true
  | .jl _ => true
  | .jnl _ => true
  | .jle _ => true
  | .jg _ => true
  | .loopnz _ => true
  | .loopz _ => true
  | .loop _ => true
  | .jcxz _ => true

end Sys2Proof
end

