-- ==== Sys2Proof/Decode.lean ====
section
/-! DEFINITION. The classifier (R50 to R56), the common field decoder (R57 to R61), the family decoders
(the reading part of R82 to R138) and, after them, the encoder written from the same formats (R47 to
R49). The text and the record of an instruction are in the Machine files (R146 allows the two phases). -/

namespace Sys2Proof

open Machine

/-- `classify(b)` (R51): the predicates of R53, R54 and R55, first match first. `none` is the
classification failure of R56. The SUB and CMP patterns are the corrected ones (conflicts C1, C2). -/
def classify (b : Byte) : Option OpClass :=
  if b.extractLsb' 2 6 = 0b100010#6 then some (.move .regMemReg)
  else if b = 0b10001110#8 ∨ b = 0b10001100#8 then some (.move .regMemReg)
  else if b.extractLsb' 1 7 = 0b1100011#7 then some (.move .immToRegMem)
  else if b.extractLsb' 4 4 = 0b1011#4 then some (.move .immToReg)
  else if b.extractLsb' 1 7 = 0b1010000#7 then some (.move .memToAcc)
  else if b.extractLsb' 1 7 = 0b1010001#7 then some (.move .accToMem)
  else if b.extractLsb' 2 6 = 0b000000#6 then some (.arithRegMemReg .add)
  else if b.extractLsb' 1 7 = 0b0000010#7 then some (.arithImmToAcc .add)
  else if b.extractLsb' 2 6 = 0b001010#6 then some (.arithRegMemReg .sub)
  else if b.extractLsb' 1 7 = 0b0010110#7 then some (.arithImmToAcc .sub)
  else if b.extractLsb' 2 6 = 0b001110#6 then some (.arithRegMemReg .cmp)
  else if b.extractLsb' 1 7 = 0b0011110#7 then some (.arithImmToAcc .cmp)
  else if b.extractLsb' 2 6 = 0b100000#6 then some .arithImmToRegMem
  else if b.extractLsb' 4 4 = 0b0111#4 then some .jcc
  else if b.extractLsb' 2 6 = 0b111000#6 then some .loop
  else none

/-- The displacement that the common field decoder reads after the mod-reg-rm byte (R58 to R61). -/
def decodeDisp (mod : ModCode) (rm : RegCode) (c : Cursor) : Except Err (Word × Cursor) :=
  if mod = 0b01#2 then do
    let (v, c) ← c.readI8
    .ok (sext16 v, c)
  else if mod = 0b10#2 then c.readU16
  else if mod = 0b00#2 ∧ rm = 0b110#3 then c.readU16
  else .ok (0#16, c)

/-- `decodeCommon()` (R57). -/
def decodeCommon (c : Cursor) : Except Err (Common × Cursor) := do
  let (m, c) ← c.readU8
  let (disp, c) ← decodeDisp (modOf m) (rmOf m) c
  .ok (⟨modOf m, regOf m, rmOf m, disp⟩, c)

/-- The reads of the Move family (R82 to R88). -/
def decodeMove (form : MoveForm) (c : Cursor) : Except Err (Instr × Cursor) :=
  match form with
  | .regMemReg => do
    let (b, c) ← c.readU8
    let (k, c) ← decodeCommon c
    if b = 0x8C#8 then .ok (.movSegStore k.reg k.rmField, c)
    else if b = 0x8E#8 then .ok (.movSegLoad k.reg k.rmField, c)
    else .ok (.movRmReg (bitAt b 1) (bitAt b 0) k.reg k.rmField, c)
  | .immToReg => do
    let (b, c) ← c.readU8
    let (v, c) ← c.readU16OrU8 (wideW (bitAt b 3))
    .ok (.movRegImm (bitAt b 3) (b.extractLsb' 0 3) v, c)
  | .immToRegMem => do
    let (b, c) ← c.readU8
    let (k, c) ← decodeCommon c
    let (v, c) ← c.readU16OrU8 (wideW (bitAt b 0))
    .ok (.movRmImm (bitAt b 0) k.reg k.rmField v, c)
  | .memToAcc => do
    let (b, c) ← c.readU8
    let (a, c) ← c.readU16
    .ok (.movMemToAcc (bitAt b 0) a, c)
  | .accToMem => do
    let (b, c) ← c.readU8
    let (a, c) ← c.readU16
    .ok (.movAccToMem (bitAt b 0) a, c)

/-- The register/memory row of an operation (R90 to R92). -/
def arithRmRegInstr (op : ArithOp) (d w : Bit) (k : Common) : Instr :=
  match op with
  | .add => .addRmReg d w k.reg k.rmField
  | .sub => .subRmReg d w k.reg k.rmField
  | .cmp => .cmpRmReg d w k.reg k.rmField

/-- The immediate-to-register/memory row of an operation (R95 to R97). -/
def arithRmImmInstr (op : ArithOp) (s w : Bit) (x : RmField) (v : Word) : Instr :=
  match op with
  | .add => .addRmImm s w x v
  | .sub => .subRmImm s w x v
  | .cmp => .cmpRmImm s w x v

/-- The immediate-to-accumulator row of an operation (R98 to R100). -/
def arithAccInstr (op : ArithOp) (w : Bit) (v : Word) : Instr :=
  match op with
  | .add => .addAccImm w v
  | .sub => .subAccImm w v
  | .cmp => .cmpAccImm w v

/-- The operation that `reg` selects in the 80-83 group (R93); `none` is the InvalidOperation of R69. -/
def groupOp (reg : RegCode) : Option ArithOp :=
  if reg = 0b000#3 then some .add
  else if reg = 0b101#3 then some .sub
  else if reg = 0b111#3 then some .cmp
  else none

/-- The reads of ADD, SUB and CMP between register and register/memory (R90 to R92). -/
def decodeArithRmReg (op : ArithOp) (c : Cursor) : Except Err (Instr × Cursor) := do
  let (b, c) ← c.readU8
  let (k, c) ← decodeCommon c
  .ok (arithRmRegInstr op (bitAt b 1) (bitAt b 0) k, c)

/-- The reads of the 80-83 group in the order of R93: the common fields, then the operation check, then
the immediate. -/
def decodeArithRmImm (c : Cursor) : Except Err (Instr × Cursor) := do
  let (b, c) ← c.readU8
  let (k, c) ← decodeCommon c
  match groupOp k.reg with
  | none => .error (.invalidOperation c.start b k.reg)
  | some op => do
    let (v, c) ← c.readU16OrU8 (wideSW (bitAt b 1) (bitAt b 0))
    .ok (arithRmImmInstr op (bitAt b 1) (bitAt b 0) k.rmField v, c)

/-- The reads of ADD, SUB and CMP with the accumulator (R98 to R100). -/
def decodeArithAcc (op : ArithOp) (c : Cursor) : Except Err (Instr × Cursor) := do
  let (b, c) ← c.readU8
  let (v, c) ← c.readU16OrU8 (wideW (bitAt b 0))
  .ok (arithAccInstr op (bitAt b 0) v, c)

/-- The conditional jump whose condition index is opcode bits 3:0 (R117). -/
def jccInstr (i : BitVec 4) (rel8 : Byte) : Instr :=
  match i.toNat with
  | 0 => .jo rel8
  | 1 => .jno rel8
  | 2 => .jb rel8
  | 3 => .jnb rel8
  | 4 => .jz rel8
  | 5 => .jnz rel8
  | 6 => .jbe rel8
  | 7 => .ja rel8
  | 8 => .js rel8
  | 9 => .jns rel8
  | 10 => .jp rel8
  | 11 => .jnp rel8
  | 12 => .jl rel8
  | 13 => .jnl rel8
  | 14 => .jle rel8
  | _ => .jg rel8

/-- The loop form whose index is opcode bits 1:0 (R134). -/
def loopInstr (i : BitVec 2) (rel8 : Byte) : Instr :=
  match i.toNat with
  | 0 => .loopnz rel8
  | 1 => .loopz rel8
  | 2 => .loop rel8
  | _ => .jcxz rel8

/-- The reads of the conditional jumps (R115). -/
def decodeJcc (c : Cursor) : Except Err (Instr × Cursor) := do
  let (b, c) ← c.readU8
  let (rel8, c) ← c.readI8
  .ok (jccInstr (b.extractLsb' 0 4) rel8, c)

/-- The reads of the loop forms (R115). -/
def decodeLoop (c : Cursor) : Except Err (Instr × Cursor) := do
  let (b, c) ← c.readU8
  let (rel8, c) ← c.readI8
  .ok (loopInstr (b.extractLsb' 0 2) rel8, c)

/-- The family decoder the classifier's answer selects (R139). -/
def decodeFamily (k : OpClass) (c : Cursor) : Except Err (Instr × Cursor) :=
  match k with
  | .move form => decodeMove form c
  | .arithRegMemReg op => decodeArithRmReg op c
  | .arithImmToAcc op => decodeArithAcc op c
  | .arithImmToRegMem => decodeArithRmImm c
  | .jcc => decodeJcc c
  | .loop => decodeLoop c

/-- One instruction at the cursor: peek, classify, dispatch to the family decoder (R50, R139). It answers
the instruction with the cursor after it, or the error raised. -/
def decodeInstr (c : Cursor) : Except Err (Instr × Cursor) := do
  let bytes ← c.peek 1 true
  let b := bytes.headD 0
  match classify b with
  | none => .error (.unsupportedOpcode c.off b)
  | some k => decodeFamily k c

/-- The cursor at the start of a buffer that holds exactly `bytes`. -/
def cursorOfBytes (bytes : List Byte) : Cursor := ⟨Memory.ofBytes bytes, bytes.length, 0, 0⟩

/-- The decoder on a list of bytes: the first instruction and the number of bytes it consumed. -/
def decode (bytes : List Byte) : Except Err (Instr × Nat) := do
  let (i, c) ← decodeInstr (cursorOfBytes bytes)
  .ok (i, c.off)

/-- The first byte of an instruction, from the patterns of R47 and R53 to R55. -/
def Instr.opcode : Instr → Byte
  | .movRmReg d w _ _ => 0b100010#6 ++ d ++ w
  | .movSegStore _ _ => 0b10001100#8
  | .movSegLoad _ _ => 0b10001110#8
  | .movRegImm w reg _ => 0b1011#4 ++ w ++ reg
  | .movRmImm w _ _ _ => 0b1100011#7 ++ w
  | .movMemToAcc w _ => 0b1010000#7 ++ w
  | .movAccToMem w _ => 0b1010001#7 ++ w
  | .addRmReg d w _ _ => 0b000000#6 ++ d ++ w
  | .subRmReg d w _ _ => 0b001010#6 ++ d ++ w
  | .cmpRmReg d w _ _ => 0b001110#6 ++ d ++ w
  | .addRmImm s w _ _ => 0b100000#6 ++ s ++ w
  | .subRmImm s w _ _ => 0b100000#6 ++ s ++ w
  | .cmpRmImm s w _ _ => 0b100000#6 ++ s ++ w
  | .addAccImm w _ => 0b0000010#7 ++ w
  | .subAccImm w _ => 0b0010110#7 ++ w
  | .cmpAccImm w _ => 0b0011110#7 ++ w
  | .jo _ => 0x70#8
  | .jno _ => 0x71#8
  | .jb _ => 0x72#8
  | .jnb _ => 0x73#8
  | .jz _ => 0x74#8
  | .jnz _ => 0x75#8
  | .jbe _ => 0x76#8
  | .ja _ => 0x77#8
  | .js _ => 0x78#8
  | .jns _ => 0x79#8
  | .jp _ => 0x7A#8
  | .jnp _ => 0x7B#8
  | .jl _ => 0x7C#8
  | .jnl _ => 0x7D#8
  | .jle _ => 0x7E#8
  | .jg _ => 0x7F#8
  | .loopnz _ => 0xE0#8
  | .loopz _ => 0xE1#8
  | .loop _ => 0xE2#8
  | .jcxz _ => 0xE3#8

/-- The displacement bytes after a mod-reg-rm byte (R49, R58 to R61). -/
def dispBytes (x : RmField) : List Byte :=
  if x.mod = 0b01#2 then [loByte x.disp]
  else if dispLen x.mod x.rm = 2 then [loByte x.disp, hiByte x.disp]
  else []

/-- The immediate bytes (R49, R63). -/
def immBytes (wide : Bool) (imm : Word) : List Byte :=
  if wide then [loByte imm, hiByte imm] else [loByte imm]

/-- Format `F_RM` (R49). -/
def encodeRm (opcode : Byte) (reg : RegCode) (x : RmField) : List Byte :=
  opcode :: modRegRm x.mod reg x.rm :: dispBytes x

/-- Format `F_RM_IMM` (R49). -/
def encodeRmImm (opcode : Byte) (reg : RegCode) (x : RmField) (wide : Bool) (imm : Word) : List Byte :=
  opcode :: modRegRm x.mod reg x.rm :: (dispBytes x ++ immBytes wide imm)

/-- Formats `F_REG_IMM` and `F_ACC_IMM` (R49). -/
def encodeImm (opcode : Byte) (wide : Bool) (imm : Word) : List Byte := opcode :: immBytes wide imm

/-- Format `F_ACC_ADDR` (R49): both address bytes, always. -/
def encodeAccAddr (opcode : Byte) (addr : Word) : List Byte := [opcode, loByte addr, hiByte addr]

/-- Format `F_REL8` (R49). -/
def encodeRel8 (opcode rel8 : Byte) : List Byte := [opcode, rel8]

/-- The bytes of an instruction in stream order (R49). -/
def encode (i : Instr) : List Byte :=
  match i with
  | .movRmReg _ _ reg x => encodeRm i.opcode reg x
  | .movSegStore reg x => encodeRm i.opcode reg x
  | .movSegLoad reg x => encodeRm i.opcode reg x
  | .movRegImm w _ imm => encodeImm i.opcode (wideW w) imm
  | .movRmImm w reg x imm => encodeRmImm i.opcode reg x (wideW w) imm
  | .movMemToAcc _ addr => encodeAccAddr i.opcode addr
  | .movAccToMem _ addr => encodeAccAddr i.opcode addr
  | .addRmReg _ _ reg x => encodeRm i.opcode reg x
  | .subRmReg _ _ reg x => encodeRm i.opcode reg x
  | .cmpRmReg _ _ reg x => encodeRm i.opcode reg x
  | .addRmImm s w x imm => encodeRmImm i.opcode 0b000#3 x (wideSW s w) imm
  | .subRmImm s w x imm => encodeRmImm i.opcode 0b101#3 x (wideSW s w) imm
  | .cmpRmImm s w x imm => encodeRmImm i.opcode 0b111#3 x (wideSW s w) imm
  | .addAccImm w imm => encodeImm i.opcode (wideW w) imm
  | .subAccImm w imm => encodeImm i.opcode (wideW w) imm
  | .cmpAccImm w imm => encodeImm i.opcode (wideW w) imm
  | .jo rel8 => encodeRel8 i.opcode rel8
  | .jno rel8 => encodeRel8 i.opcode rel8
  | .jb rel8 => encodeRel8 i.opcode rel8
  | .jnb rel8 => encodeRel8 i.opcode rel8
  | .jz rel8 => encodeRel8 i.opcode rel8
  | .jnz rel8 => encodeRel8 i.opcode rel8
  | .jbe rel8 => encodeRel8 i.opcode rel8
  | .ja rel8 => encodeRel8 i.opcode rel8
  | .js rel8 => encodeRel8 i.opcode rel8
  | .jns rel8 => encodeRel8 i.opcode rel8
  | .jp rel8 => encodeRel8 i.opcode rel8
  | .jnp rel8 => encodeRel8 i.opcode rel8
  | .jl rel8 => encodeRel8 i.opcode rel8
  | .jnl rel8 => encodeRel8 i.opcode rel8
  | .jle rel8 => encodeRel8 i.opcode rel8
  | .jg rel8 => encodeRel8 i.opcode rel8
  | .loopnz rel8 => encodeRel8 i.opcode rel8
  | .loopz rel8 => encodeRel8 i.opcode rel8
  | .loop rel8 => encodeRel8 i.opcode rel8
  | .jcxz rel8 => encodeRel8 i.opcode rel8

/-- The length of an instruction, from the forms of R46 and R67. -/
def Instr.length : Instr → Nat
  | .movRmReg _ _ _ x => 2 + dispLen x.mod x.rm
  | .movSegStore _ x => 2 + dispLen x.mod x.rm
  | .movSegLoad _ x => 2 + dispLen x.mod x.rm
  | .movRegImm w _ _ => 1 + immLen (wideW w)
  | .movRmImm w _ x _ => 2 + dispLen x.mod x.rm + immLen (wideW w)
  | .movMemToAcc _ _ => 3
  | .movAccToMem _ _ => 3
  | .addRmReg _ _ _ x => 2 + dispLen x.mod x.rm
  | .subRmReg _ _ _ x => 2 + dispLen x.mod x.rm
  | .cmpRmReg _ _ _ x => 2 + dispLen x.mod x.rm
  | .addRmImm s w x _ => 2 + dispLen x.mod x.rm + immLen (wideSW s w)
  | .subRmImm s w x _ => 2 + dispLen x.mod x.rm + immLen (wideSW s w)
  | .cmpRmImm s w x _ => 2 + dispLen x.mod x.rm + immLen (wideSW s w)
  | .addAccImm w _ => 1 + immLen (wideW w)
  | .subAccImm w _ => 1 + immLen (wideW w)
  | .cmpAccImm w _ => 1 + immLen (wideW w)
  | .jo _ => 2
  | .jno _ => 2
  | .jb _ => 2
  | .jnb _ => 2
  | .jz _ => 2
  | .jnz _ => 2
  | .jbe _ => 2
  | .ja _ => 2
  | .js _ => 2
  | .jns _ => 2
  | .jp _ => 2
  | .jnp _ => 2
  | .jl _ => 2
  | .jnl _ => 2
  | .jle _ => 2
  | .jg _ => 2
  | .loopnz _ => 2
  | .loopz _ => 2
  | .loop _ => 2
  | .jcxz _ => 2

/-- The six bytes (the longest instruction, R46) of a table word: the row's `nbits` bits are its
selecting bytes with byte 0 the most significant, as R80 and the table's fields number them (log entry
7), and every byte after them is 0. -/
def tableBytes (nbits w : Nat) : List Byte :=
  let n := nbits / 8
  (List.range 6).map fun k => if k < n then BitVec.ofNat 8 (w >>> (8 * (n - 1 - k))) else 0

/-- The instruction the decoder reads from a table word; `none` where it raises an error. -/
def decodeTableWord (nbits w : Nat) : Option Instr :=
  match decode (tableBytes nbits w) with
  | .ok (i, _) => some i
  | .error _ => none

end Sys2Proof
end

