-- ==== Sys2Proof/Config.lean ====
section
/-! DEFINITION. The implementation parameters of rules R8 to R10: the points the spec leaves open, as
plain data fixed for one instance of the block. The default values are in Machine/Tables.lean. -/

namespace Sys2Proof

/-- `P_IMM8S_TEXT` (R9): how the one-byte immediate of opcode 83 is written. -/
inductive Imm8sText where
  | signed
  | wordUnsigned
  | byteUnsigned
  deriving DecidableEq, Repr

/-- `P_SREG_TEXT` (R10): how opcodes 8C and 8E name their `reg` operand. -/
inductive SregText where
  | general
  | segment
  deriving DecidableEq, Repr

/-- The parameters of one instance of the block (R8 to R10). Rule R14 fixes them per instance: no step
and no `load` changes them. -/
structure Params where
  /-- `P_MAX_LEN` (R8); `none` is the unbounded length the rule allows. -/
  maxLen : Option Nat
  /-- `P_IMM8S_TEXT` (R9). -/
  imm8sText : Imm8sText
  /-- `P_SREG_TEXT` (R10). -/
  sregText : SregText
  /-- `P_JCC_NAMES` (R10, R117), indexed by opcode bits 3:0. -/
  jccNames : Vector String 16
  /-- `P_LOOP_NAMES` (R10, R134), indexed by opcode bits 1:0. -/
  loopNames : Vector String 4
  deriving DecidableEq, Repr

end Sys2Proof
end

