-- ==== Sys2Proof/Machine/Tables.lean ====
section
/-! DEFINITION. The read-only tables of R24 and the default parameter values of R8 to R10. -/

namespace Sys2Proof.Machine

/-- The register-name table `REG[w][code]` (R101). -/
def regTable : Vector (Vector String 8) 2 :=
  #v[#v["al", "cl", "dl", "bl", "ah", "ch", "dh", "bh"],
     #v["ax", "cx", "dx", "bx", "sp", "bp", "si", "di"]]

/-- The texts of the memory base-expression table `EA[rm]` (R102). -/
def eaTable : Vector String 8 :=
  #v["bx + si", "bx + di", "bp + si", "bp + di", "si", "di", "bp", "bx"]

/-- The base registers of `EA[rm]` as word register codes (R102). -/
def eaBaseTable : Vector (Option RegCode) 8 :=
  #v[some 0b011#3, some 0b011#3, some 0b101#3, some 0b101#3, none, none, some 0b101#3, some 0b011#3]

/-- The index registers of `EA[rm]` as word register codes (R102). -/
def eaIndexTable : Vector (Option RegCode) 8 :=
  #v[some 0b110#3, some 0b111#3, some 0b110#3, some 0b111#3, some 0b110#3, some 0b111#3, none, none]

/-- `SREG`, the segment-register names of `P_SREG_TEXT = segment` (R83). -/
def sregTable : Vector String 4 := #v["es", "cs", "ss", "ds"]

/-- The default of `P_JCC_NAMES` (R117). -/
def defaultJccNames : Vector String 16 :=
  #v["jo", "jno", "jb", "jnb", "jz", "jnz", "jbe", "ja",
     "js", "jns", "jp", "jnp", "jl", "jnl", "jle", "jg"]

/-- The default of `P_LOOP_NAMES` (R134). -/
def defaultLoopNames : Vector String 4 := #v["loopnz", "loopz", "loop", "jcxz"]

/-- The parameters at the defaults of R8 to R10. -/
def defaultParams : Params where
  maxLen := none
  imm8sText := .signed
  sregText := .general
  jccNames := defaultJccNames
  loopNames := defaultLoopNames

/-- The header line with its newline (R140). -/
def header : String := "bits 16\n"

end Sys2Proof.Machine
end

