-- ==== Sys2Proof/Machine/Operands.lean ====
section
/-! DEFINITION. Operand resolution and operand text: decimal numbers (R12), the register and
base-expression tables (R101, R102), the addressing modes (R103 to R114), the immediates of the 80-83
group (R94), size qualifiers (R79) and jump targets (R116). -/

namespace Sys2Proof.Machine

/-- The decimal digits of `n` before `acc`; `fuel` is above the number of digits. -/
def decDigits : Nat → Nat → List Char → List Char
  | 0, _, acc => acc
  | fuel + 1, n, acc =>
    if n < 10 then Char.ofNat (48 + n) :: acc
    else decDigits fuel (n / 10) (Char.ofNat (48 + n % 10) :: acc)

/-- `dec(n)` of a natural number (R12). -/
def decNat (n : Nat) : String := String.ofList (decDigits (n + 1) n [])

/-- `dec(n)` of an integer (R12): a leading `-` only when `n` is negative. -/
def decInt (n : Int) : String := if n < 0 then "-" ++ decNat n.natAbs else decNat n.natAbs

/-- `regText(w, code) = REG[w][code]` (R108). -/
def regText (w : Bit) (code : RegCode) : String :=
  (regTable[w.toNat]'(by have := w.isLt; omega))[code.toNat]'(by have := code.isLt; omega)

/-- The text of `EA[rm]` (R102). -/
def eaText (rm : RegCode) : String := eaTable[rm.toNat]'(by have := rm.isLt; omega)

/-- The base register of `EA[rm]` (R102). -/
def eaBase (rm : RegCode) : Option RegCode := eaBaseTable[rm.toNat]'(by have := rm.isLt; omega)

/-- The index register of `EA[rm]` (R102). -/
def eaIndex (rm : RegCode) : Option RegCode := eaIndexTable[rm.toNat]'(by have := rm.isLt; omega)

/-- The segment register that bits 1:0 of `reg` name under `P_SREG_TEXT = segment` (R83). -/
def sregName (reg : RegCode) : String :=
  sregTable[(reg.extractLsb' 0 2).toNat]'(by have := (reg.extractLsb' 0 2).isLt; omega)

/-- A resolved register-or-memory operand (R103). -/
inductive Operand where
  | reg (w : Bit) (code : RegCode)
  | mem (rm : RegCode) (disp : Option Word)
  | direct (addr : Word)
  deriving DecidableEq, Repr

/-- `resolve(mod, rm, disp, w)` (R103 to R107). -/
def resolve (mod : ModCode) (rm : RegCode) (disp : Word) (w : Bit) : Operand :=
  if mod = 0b11#2 then .reg w rm
  else if mod = 0b00#2 ∧ rm ≠ 0b110#3 then .mem rm none
  else if mod = 0b00#2 ∧ rm = 0b110#3 then .direct disp
  else .mem rm (some disp)

/-- The displacement term of R109: none for zero, an explicit sign otherwise; the magnitude is an
unbounded integer (R110). -/
def dispTerm (disp : Word) : String :=
  if asSigned16 disp = 0 then ""
  else if 0 < asSigned16 disp then " + " ++ decInt (asSigned16 disp)
  else " - " ++ decInt (-asSigned16 disp)

/-- A direct address in brackets, unsigned (R106). -/
def addrText (addr : Word) : String := "[" ++ decNat (asUnsigned16 addr) ++ "]"

/-- The text of a resolved operand (R108, R109). -/
def operandText : Operand → String
  | .reg w code => regText w code
  | .mem rm none => "[" ++ eaText rm ++ "]"
  | .mem rm (some disp) => "[" ++ eaText rm ++ dispTerm disp ++ "]"
  | .direct addr => addrText addr

/-- `rmText(c, w)` (R109). -/
def rmText (x : RmField) (w : Bit) : String := operandText (resolve x.mod x.rm x.disp w)

/-- `memText(c)` (R109), the r/m operand of a form with mod ≠ 11; the width does not enter. -/
def memText (x : RmField) : String := rmText x 0#1

/-- The `reg` operand of 8C and 8E under `P_SREG_TEXT` (R83). -/
def segRegText (p : Params) (reg : RegCode) : String :=
  match p.sregText with
  | .general => regText 0#1 reg
  | .segment => sregName reg

/-- The r/m operand of 8C and 8E under `P_SREG_TEXT` (R83): a byte operand in `general`, a word operand
in `segment`. -/
def segRmText (p : Params) (x : RmField) : String :=
  match p.sregText with
  | .general => rmText x 0#1
  | .segment => rmText x 1#1

/-- The size qualifier with its space (R79). -/
def sizeText (w : Bit) : String := if w = 1#1 then "word " else "byte "

/-- `immText(s, w, v)` (R94). -/
def immText (p : Params) (s w : Bit) (v : Word) : String :=
  if s = 1#1 ∧ w = 1#1 then
    match p.imm8sText with
    | .signed => decInt (asSigned16 (sext16 (loByte v)))
    | .wordUnsigned => decNat (asUnsigned16 (sext16 (loByte v)))
    | .byteUnsigned => decNat (asUnsigned16 v)
  else decNat (asUnsigned16 v)

/-- The accumulator of the immediate-to-accumulator forms (R98 to R100). -/
def accText (w : Bit) : String := if w = 1#1 then "ax" else "al"

/-- `OPNAME` (R89). -/
def opName : ArithOp → String
  | .add => "add"
  | .sub => "sub"
  | .cmp => "cmp"

/-- `JCC[i]` (R117). -/
def jccName (p : Params) (i : BitVec 4) : String := p.jccNames[i.toNat]'(by have := i.isLt; omega)

/-- `LOOP[i]` (R134). -/
def loopName (p : Params) (i : BitVec 2) : String := p.loopNames[i.toNat]'(by have := i.isLt; omega)

/-- A line with two operands (R74). -/
def line2 (mnemonic dst src : String) : String := mnemonic ++ " " ++ dst ++ ", " ++ src

/-- A line whose operand order follows the direction bit (R112): `reg` first when d = 1#1. -/
def lineDir (mnemonic : String) (d : Bit) (reg rm : String) : String :=
  if d = 1#1 then line2 mnemonic reg rm else line2 mnemonic rm reg

/-- `jumpText(name, rel8)` (R116). -/
def jumpText (name : String) (rel8 : Byte) : String :=
  name ++ " $+2" ++ (if 0 ≤ asSigned8 rel8 then "+" else "-") ++ decNat (asSigned8 rel8).natAbs

end Sys2Proof.Machine
end

