-- ==== Sys2Proof/Machine/State.lean ====
section
/-! DEFINITION. The state of the block (R13 to R26), its records (R18), the model's stops, and the state
after reset (R161). -/

namespace Sys2Proof.Machine

/-- The status of the block (R17). -/
inductive Phase where
  | run
  | done
  | error
  deriving DecidableEq, Repr

/-- The record of a Move instruction (R18). -/
structure MoveRecord where
  form : MoveForm
  common : Option Common
  data : Option Word
  opcode : Byte
  d : Bit
  w : Bit
  opreg : Option RegCode
  dataWide : Bool
  start : Nat
  len : Nat
  deriving DecidableEq, Repr

/-- The record of an Arithmetic instruction (R18). -/
structure ArithRecord where
  form : ArithForm
  op : ArithOp
  common : Option Common
  data : Option Word
  d : Bit
  s : Bit
  w : Bit
  opcode : Byte
  dataWide : Bool
  start : Nat
  len : Nat
  deriving DecidableEq, Repr

/-- The record of a conditional jump or loop form (R18). -/
structure JumpRecord where
  opcode : Byte
  rel8 : Byte
  start : Nat
  len : Nat
  deriving DecidableEq, Repr

/-- The record of one decoded instruction, a closed tagged variant (R18). -/
inductive Record where
  | move (r : MoveRecord)
  | arithmetic (r : ArithRecord)
  | jumpOrLoop (r : JumpRecord)
  deriving DecidableEq, Repr

/-- The offset of the instruction's opcode byte (R18). -/
def Record.start : Record → Nat
  | .move r => r.start
  | .arithmetic r => r.start
  | .jumpOrLoop r => r.start

/-- The number of bytes the instruction consumed (R18). -/
def Record.len : Record → Nat
  | .move r => r.len
  | .arithmetic r => r.len
  | .jumpOrLoop r => r.len

/-- The result of a finished run (R142). -/
inductive RunResult where
  | ok (text : String)
  | error (e : Err)
  deriving DecidableEq, Repr

/-- The state of the block (section 1 of 10_state.md), with the parameters of the instance. -/
structure State where
  /-- The parameters of R8 to R10, fixed per instance (log entry 1). -/
  params : Params
  /-- The bytes of `buf` (R16, R27). -/
  buf : Memory
  /-- `len`, the buffer's length (R16). -/
  len : Nat
  /-- `off`, the cursor offset: the program counter (R15). -/
  off : Nat
  /-- `phase` (R17). -/
  phase : Phase
  /-- `text`, the rendered output so far (R19). -/
  text : String
  /-- `count`, the number of instructions decoded (R22). -/
  count : Nat
  /-- `last`, the record of the last decoded instruction (R18). -/
  last : Option Record
  /-- `err`, the error that stopped the run (R21). -/
  err : Option Err
  deriving DecidableEq, Repr

/-- Why the model stops. -/
inductive Fault where
  /-- Raised by `step` in DONE and ERROR, where no step is enabled (R17, R20, R155). Safe: the block has
  no transition there either. -/
  | noStepEnabled
  deriving DecidableEq, Repr

/-- What the model does not accept. -/
inductive Refusal where
  /-- An instruction without a meaning; no arm of `exec` answers it. Safe. -/
  | notModelled (mnemonic : String)
  /-- Answered by `load` for a buffer longer than `P_MAX_LEN`, which is outside the model (R8, R161 and
  I20 of 93_implementation_defined.md). Safe. -/
  | bufferTooLong
  deriving DecidableEq, Repr

/-- The state after reset: the one that `load` of the empty byte sequence leaves (R161, R162), with the
default parameters (log entries 5 and 6). -/
def State.reset : State where
  params := defaultParams
  buf := []
  len := 0
  off := 0
  phase := .run
  text := header
  count := 0
  last := none
  err := none

end Sys2Proof.Machine
end

