-- ==== Sys2Proof/Machine/Ops.lean ====
section
/-! DEFINITION. The shared operations on the state: the cursor, the end of a successful step, the end of
the run, raising an error (the block's exception entry), `load` (its only way back), and the result. -/

namespace Sys2Proof.Machine

/-- The outcome of a step. -/
abbrev Out := Host.Outcome State Fault Refusal

/-- The cursor at the start of a step (R15). -/
def State.cursor (s : State) : Cursor := ⟨s.buf, s.len, s.off, s.off⟩

/-- Raising an error (R154): `phase` and `err` are written, and nothing else. -/
def raise (e : Err) (s : State) : State := { s with phase := .error, err := some e }

/-- The step at the end of the stream (R139): `phase` is written, and nothing else. -/
def finish (s : State) : State := { s with phase := .done }

/-- The end of a successful step (R139, R141): the offset moves past the instruction, the line and a
newline are appended, the count and the last record are written. -/
def commit (r : Record) (line : String) (s : State) : State :=
  { s with
    off := s.off + r.len
    text := s.text ++ line ++ "\n"
    count := s.count + 1
    last := some r }

/-- Whether a buffer of `n` bytes is within `P_MAX_LEN` (R8). -/
def lenAllowed (p : Params) (n : Nat) : Bool :=
  match p.maxLen with
  | none => true
  | some m => n ≤ m

/-- `load(bytes)` (R14, R161): the only reset, in any phase. A buffer longer than `P_MAX_LEN` is refused. -/
def load (bytes : List Byte) (s : State) : Out :=
  if lenAllowed s.params bytes.length then
    .next
      { params := s.params
        buf := Memory.ofBytes bytes
        len := bytes.length
        off := 0
        phase := .run
        text := header
        count := 0
        last := none
        err := none }
  else .refused .bufferTooLong

/-- The result of the run (R142): defined once `phase` is not RUN; `text` is part of it only after DONE. -/
def result (s : State) : Option RunResult :=
  match s.phase with
  | .run => none
  | .done => some (.ok s.text)
  | .error => s.err.map .error

/-- The bytes stored from the current offset on, with the length raised to hold them and the block in
RUN: what `withFetchWord` needs (log entry 6). No step of the block does this. -/
def placeAtFetch (bytes : List Byte) (s : State) : State :=
  { s with
    buf := s.buf.writeBytes s.off bytes
    len := max s.len (s.off + bytes.length)
    phase := .run }

end Sys2Proof.Machine
end

