-- ==== Sys2Proof/Machine/Arithmetic.lean ====
section
/-! DEFINITION. The meanings of the Arithmetic family (R89 to R100): one shared operation per sub-form,
and one definition per row of the table over it. -/

namespace Sys2Proof.Machine

/-- Register/memory with register: the shared pseudocode of R90 to R92. -/
def arithRmReg (op : ArithOp) (opcode : Byte) (n : Nat) (d w : Bit) (reg : RegCode) (x : RmField)
    (s : State) : Out :=
  let r : ArithRecord :=
    { form := .regMemReg, op := op, common := some (x.common reg), data := none, d := d, s := 0#1, w := w,
      opcode := opcode, dataWide := false, start := s.off, len := n }
  .next (commit (.arithmetic r) (lineDir (opName op) d (regText w reg) (rmText x w)) s)

/-- Immediate to register/memory: the pseudocode of R93 after its reads. The size qualifier stands
before the memory operand when mod ≠ 11. -/
def arithRmImm (op : ArithOp) (reg : RegCode) (opcode : Byte) (n : Nat) (sx w : Bit) (x : RmField)
    (imm : Word) (s : State) : Out :=
  let r : ArithRecord :=
    { form := .immToRegMem, op := op, common := some (x.common reg), data := some imm, d := 0#1, s := sx,
      w := w, opcode := opcode, dataWide := wideSW sx w, start := s.off, len := n }
  let t := immText s.params sx w imm
  let line :=
    if x.mod = 0b11#2 then line2 (opName op) (regText w x.rm) t
    else line2 (opName op) (sizeText w ++ memText x) t
  .next (commit (.arithmetic r) line s)

/-- Immediate to accumulator: the shared pseudocode of R98 to R100. -/
def arithAcc (op : ArithOp) (opcode : Byte) (n : Nat) (w : Bit) (imm : Word) (s : State) : Out :=
  let r : ArithRecord :=
    { form := .immToAcc, op := op, common := none, data := some imm, d := 0#1, s := 0#1, w := w,
      opcode := opcode, dataWide := wideW w, start := s.off, len := n }
  .next (commit (.arithmetic r) (line2 (opName op) (accText w) (decNat (asUnsigned16 imm))) s)

/-- `ADD` between register and register/memory, 00-03 (R90). -/
def execAddRmReg (d w : Bit) (reg : RegCode) (x : RmField) (s : State) : Out :=
  arithRmReg .add (Instr.addRmReg d w reg x).opcode (Instr.addRmReg d w reg x).length d w reg x s

/-- `SUB` between register and register/memory, 28-2B (R91). -/
def execSubRmReg (d w : Bit) (reg : RegCode) (x : RmField) (s : State) : Out :=
  arithRmReg .sub (Instr.subRmReg d w reg x).opcode (Instr.subRmReg d w reg x).length d w reg x s

/-- `CMP` between register and register/memory, 38-3B (R92). -/
def execCmpRmReg (d w : Bit) (reg : RegCode) (x : RmField) (s : State) : Out :=
  arithRmReg .cmp (Instr.cmpRmReg d w reg x).opcode (Instr.cmpRmReg d w reg x).length d w reg x s

/-- `ADD r/m, imm`, 80-83 with reg = 000 (R95). -/
def execAddRmImm (sx w : Bit) (x : RmField) (imm : Word) (s : State) : Out :=
  arithRmImm .add 0b000#3 (Instr.addRmImm sx w x imm).opcode (Instr.addRmImm sx w x imm).length sx w x imm s

/-- `SUB r/m, imm`, 80-83 with reg = 101 (R96). -/
def execSubRmImm (sx w : Bit) (x : RmField) (imm : Word) (s : State) : Out :=
  arithRmImm .sub 0b101#3 (Instr.subRmImm sx w x imm).opcode (Instr.subRmImm sx w x imm).length sx w x imm s

/-- `CMP r/m, imm`, 80-83 with reg = 111 (R97). -/
def execCmpRmImm (sx w : Bit) (x : RmField) (imm : Word) (s : State) : Out :=
  arithRmImm .cmp 0b111#3 (Instr.cmpRmImm sx w x imm).opcode (Instr.cmpRmImm sx w x imm).length sx w x imm s

/-- `ADD acc, imm`, 04-05 (R98). -/
def execAddAccImm (w : Bit) (imm : Word) (s : State) : Out :=
  arithAcc .add (Instr.addAccImm w imm).opcode (Instr.addAccImm w imm).length w imm s

/-- `SUB acc, imm`, 2C-2D (R99). -/
def execSubAccImm (w : Bit) (imm : Word) (s : State) : Out :=
  arithAcc .sub (Instr.subAccImm w imm).opcode (Instr.subAccImm w imm).length w imm s

/-- `CMP acc, imm`, 3C-3D (R100). -/
def execCmpAccImm (w : Bit) (imm : Word) (s : State) : Out :=
  arithAcc .cmp (Instr.cmpAccImm w imm).opcode (Instr.cmpAccImm w imm).length w imm s

end Sys2Proof.Machine
end

