-- ==== Sys2Proof/Machine/JumpLoop.lean ====
section
/-! DEFINITION. The meanings of the Jump-or-Loop family (R115 to R138). The instruction is decoded, not
taken: the offset moves past it whatever `rel8` is. -/

namespace Sys2Proof.Machine

/-- The shared pseudocode of R115 after its reads. -/
def jumpOrLoop (opcode : Byte) (name : String) (rel8 : Byte) (s : State) : Out :=
  let r : JumpRecord := { opcode := opcode, rel8 := rel8, start := s.off, len := 2 }
  .next (commit (.jumpOrLoop r) (jumpText name rel8) s)

/-- `JO rel8`, 70 (R118). -/
def execJo (rel8 : Byte) (s : State) : Out :=
  jumpOrLoop (Instr.jo rel8).opcode (jccName s.params 0) rel8 s

/-- `JNO rel8`, 71 (R119). -/
def execJno (rel8 : Byte) (s : State) : Out :=
  jumpOrLoop (Instr.jno rel8).opcode (jccName s.params 1) rel8 s

/-- `JB rel8`, 72 (R120). -/
def execJb (rel8 : Byte) (s : State) : Out :=
  jumpOrLoop (Instr.jb rel8).opcode (jccName s.params 2) rel8 s

/-- `JNB rel8`, 73 (R121). -/
def execJnb (rel8 : Byte) (s : State) : Out :=
  jumpOrLoop (Instr.jnb rel8).opcode (jccName s.params 3) rel8 s

/-- `JZ rel8`, 74 (R122). -/
def execJz (rel8 : Byte) (s : State) : Out :=
  jumpOrLoop (Instr.jz rel8).opcode (jccName s.params 4) rel8 s

/-- `JNZ rel8`, 75 (R123). -/
def execJnz (rel8 : Byte) (s : State) : Out :=
  jumpOrLoop (Instr.jnz rel8).opcode (jccName s.params 5) rel8 s

/-- `JBE rel8`, 76 (R124). -/
def execJbe (rel8 : Byte) (s : State) : Out :=
  jumpOrLoop (Instr.jbe rel8).opcode (jccName s.params 6) rel8 s

/-- `JA rel8`, 77 (R125). -/
def execJa (rel8 : Byte) (s : State) : Out :=
  jumpOrLoop (Instr.ja rel8).opcode (jccName s.params 7) rel8 s

/-- `JS rel8`, 78 (R126). -/
def execJs (rel8 : Byte) (s : State) : Out :=
  jumpOrLoop (Instr.js rel8).opcode (jccName s.params 8) rel8 s

/-- `JNS rel8`, 79 (R127). -/
def execJns (rel8 : Byte) (s : State) : Out :=
  jumpOrLoop (Instr.jns rel8).opcode (jccName s.params 9) rel8 s

/-- `JP rel8`, 7A (R128). -/
def execJp (rel8 : Byte) (s : State) : Out :=
  jumpOrLoop (Instr.jp rel8).opcode (jccName s.params 10) rel8 s

/-- `JNP rel8`, 7B (R129). -/
def execJnp (rel8 : Byte) (s : State) : Out :=
  jumpOrLoop (Instr.jnp rel8).opcode (jccName s.params 11) rel8 s

/-- `JL rel8`, 7C (R130). -/
def execJl (rel8 : Byte) (s : State) : Out :=
  jumpOrLoop (Instr.jl rel8).opcode (jccName s.params 12) rel8 s

/-- `JNL rel8`, 7D (R131). -/
def execJnl (rel8 : Byte) (s : State) : Out :=
  jumpOrLoop (Instr.jnl rel8).opcode (jccName s.params 13) rel8 s

/-- `JLE rel8`, 7E (R132). -/
def execJle (rel8 : Byte) (s : State) : Out :=
  jumpOrLoop (Instr.jle rel8).opcode (jccName s.params 14) rel8 s

/-- `JG rel8`, 7F (R133). -/
def execJg (rel8 : Byte) (s : State) : Out :=
  jumpOrLoop (Instr.jg rel8).opcode (jccName s.params 15) rel8 s

/-- `LOOPNZ rel8`, E0 (R135). -/
def execLoopnz (rel8 : Byte) (s : State) : Out :=
  jumpOrLoop (Instr.loopnz rel8).opcode (loopName s.params 0) rel8 s

/-- `LOOPZ rel8`, E1 (R136). -/
def execLoopz (rel8 : Byte) (s : State) : Out :=
  jumpOrLoop (Instr.loopz rel8).opcode (loopName s.params 1) rel8 s

/-- `LOOP rel8`, E2 (R137). -/
def execLoop (rel8 : Byte) (s : State) : Out :=
  jumpOrLoop (Instr.loop rel8).opcode (loopName s.params 2) rel8 s

/-- `JCXZ rel8`, E3 (R138). -/
def execJcxz (rel8 : Byte) (s : State) : Out :=
  jumpOrLoop (Instr.jcxz rel8).opcode (loopName s.params 3) rel8 s

end Sys2Proof.Machine
end

