-- ==== Sys2Proof/Machine/Move.lean ====
section
/-! DEFINITION. The meanings of the Move family (R81 to R88): each builds its line and its record. -/

namespace Sys2Proof.Machine

/-- `MOV` between register and register/memory, 88-8B (R82). -/
def execMovRmReg (d w : Bit) (reg : RegCode) (x : RmField) (s : State) : Out :=
  let i := Instr.movRmReg d w reg x
  let r : MoveRecord :=
    { form := .regMemReg, common := some (x.common reg), data := none, opcode := i.opcode,
      d := d, w := w, opreg := none, dataWide := false, start := s.off, len := i.length }
  .next (commit (.move r) (lineDir "mov" d (regText w reg) (rmText x w)) s)

/-- `MOV` 8C, the segment-register store form (R83): d = 0#1, w = 0#1. -/
def execMovSegStore (reg : RegCode) (x : RmField) (s : State) : Out :=
  let i := Instr.movSegStore reg x
  let r : MoveRecord :=
    { form := .regMemReg, common := some (x.common reg), data := none, opcode := i.opcode,
      d := 0#1, w := 0#1, opreg := none, dataWide := false, start := s.off, len := i.length }
  .next (commit (.move r) (lineDir "mov" 0#1 (segRegText s.params reg) (segRmText s.params x)) s)

/-- `MOV` 8E, the segment-register load form (R84): d = 1#1, w = 0#1. -/
def execMovSegLoad (reg : RegCode) (x : RmField) (s : State) : Out :=
  let i := Instr.movSegLoad reg x
  let r : MoveRecord :=
    { form := .regMemReg, common := some (x.common reg), data := none, opcode := i.opcode,
      d := 1#1, w := 0#1, opreg := none, dataWide := false, start := s.off, len := i.length }
  .next (commit (.move r) (lineDir "mov" 1#1 (segRegText s.params reg) (segRmText s.params x)) s)

/-- `MOV reg, imm`, B0-BF (R85). -/
def execMovRegImm (w : Bit) (reg : RegCode) (imm : Word) (s : State) : Out :=
  let i := Instr.movRegImm w reg imm
  let r : MoveRecord :=
    { form := .immToReg, common := none, data := some imm, opcode := i.opcode,
      d := 0#1, w := w, opreg := some reg, dataWide := wideW w, start := s.off, len := i.length }
  .next (commit (.move r) (line2 "mov" (regText w reg) (decNat (asUnsigned16 imm))) s)

/-- `MOV r/m, imm`, C6-C7 (R86): the size qualifier stands before the immediate when mod ≠ 11. -/
def execMovRmImm (w : Bit) (reg : RegCode) (x : RmField) (imm : Word) (s : State) : Out :=
  let i := Instr.movRmImm w reg x imm
  let r : MoveRecord :=
    { form := .immToRegMem, common := some (x.common reg), data := some imm, opcode := i.opcode,
      d := 0#1, w := w, opreg := none, dataWide := wideW w, start := s.off, len := i.length }
  let line :=
    if x.mod = 0b11#2 then line2 "mov" (regText w x.rm) (decNat (asUnsigned16 imm))
    else line2 "mov" (memText x) (sizeText w ++ decNat (asUnsigned16 imm))
  .next (commit (.move r) line s)

/-- `MOV acc, [addr]`, A0-A1 (R87): the accumulator is `ax` for both widths. -/
def execMovMemToAcc (w : Bit) (addr : Word) (s : State) : Out :=
  let i := Instr.movMemToAcc w addr
  let r : MoveRecord :=
    { form := .memToAcc, common := none, data := some addr, opcode := i.opcode,
      d := 0#1, w := w, opreg := none, dataWide := true, start := s.off, len := i.length }
  .next (commit (.move r) (line2 "mov" "ax" (addrText addr)) s)

/-- `MOV [addr], acc`, A2-A3 (R88): the accumulator is `ax` for both widths. -/
def execMovAccToMem (w : Bit) (addr : Word) (s : State) : Out :=
  let i := Instr.movAccToMem w addr
  let r : MoveRecord :=
    { form := .accToMem, common := none, data := some addr, opcode := i.opcode,
      d := 0#1, w := w, opreg := none, dataWide := true, start := s.off, len := i.length }
  .next (commit (.move r) (line2 "mov" (addrText addr) "ax") s)

end Sys2Proof.Machine
end

