-- ==== Sys2Proof/Machine/Dispatch.lean ====
section
/-! DEFINITION. The meaning of every instruction: one arm per constructor of `Instr`. -/

namespace Sys2Proof.Machine

def exec (i : Instr) (s : State) : Host.Outcome State Fault Refusal :=
  match i with
  | .movRmReg d w reg x => Sys2Proof.Machine.execMovRmReg d w reg x s
  | .movSegStore reg x => Sys2Proof.Machine.execMovSegStore reg x s
  | .movSegLoad reg x => Sys2Proof.Machine.execMovSegLoad reg x s
  | .movRegImm w reg imm => Sys2Proof.Machine.execMovRegImm w reg imm s
  | .movRmImm w reg x imm => Sys2Proof.Machine.execMovRmImm w reg x imm s
  | .movMemToAcc w addr => Sys2Proof.Machine.execMovMemToAcc w addr s
  | .movAccToMem w addr => Sys2Proof.Machine.execMovAccToMem w addr s
  | .addRmReg d w reg x => Sys2Proof.Machine.execAddRmReg d w reg x s
  | .subRmReg d w reg x => Sys2Proof.Machine.execSubRmReg d w reg x s
  | .cmpRmReg d w reg x => Sys2Proof.Machine.execCmpRmReg d w reg x s
  | .addRmImm sx w x imm => Sys2Proof.Machine.execAddRmImm sx w x imm s
  | .subRmImm sx w x imm => Sys2Proof.Machine.execSubRmImm sx w x imm s
  | .cmpRmImm sx w x imm => Sys2Proof.Machine.execCmpRmImm sx w x imm s
  | .addAccImm w imm => Sys2Proof.Machine.execAddAccImm w imm s
  | .subAccImm w imm => Sys2Proof.Machine.execSubAccImm w imm s
  | .cmpAccImm w imm => Sys2Proof.Machine.execCmpAccImm w imm s
  | .jo rel8 => Sys2Proof.Machine.execJo rel8 s
  | .jno rel8 => Sys2Proof.Machine.execJno rel8 s
  | .jb rel8 => Sys2Proof.Machine.execJb rel8 s
  | .jnb rel8 => Sys2Proof.Machine.execJnb rel8 s
  | .jz rel8 => Sys2Proof.Machine.execJz rel8 s
  | .jnz rel8 => Sys2Proof.Machine.execJnz rel8 s
  | .jbe rel8 => Sys2Proof.Machine.execJbe rel8 s
  | .ja rel8 => Sys2Proof.Machine.execJa rel8 s
  | .js rel8 => Sys2Proof.Machine.execJs rel8 s
  | .jns rel8 => Sys2Proof.Machine.execJns rel8 s
  | .jp rel8 => Sys2Proof.Machine.execJp rel8 s
  | .jnp rel8 => Sys2Proof.Machine.execJnp rel8 s
  | .jl rel8 => Sys2Proof.Machine.execJl rel8 s
  | .jnl rel8 => Sys2Proof.Machine.execJnl rel8 s
  | .jle rel8 => Sys2Proof.Machine.execJle rel8 s
  | .jg rel8 => Sys2Proof.Machine.execJg rel8 s
  | .loopnz rel8 => Sys2Proof.Machine.execLoopnz rel8 s
  | .loopz rel8 => Sys2Proof.Machine.execLoopz rel8 s
  | .loop rel8 => Sys2Proof.Machine.execLoop rel8 s
  | .jcxz rel8 => Sys2Proof.Machine.execJcxz rel8 s

end Sys2Proof.Machine
end

