-- ==== Sys2Proof/Machine/Step.lean ====
section
/-! DEFINITION. The step of R139, and the placing of a word where the step fetches. -/

namespace Sys2Proof.Machine

/-- One step (R139). It is enabled in RUN alone (R20). At the end of the stream it only writes DONE;
otherwise it decodes one instruction and runs its meaning, or raises the error that decoding met. -/
def step (s : State) : Host.Outcome State Fault Refusal :=
  match s.phase with
  | .done => .fault .noStepEnabled
  | .error => .fault .noStepEnabled
  | .run =>
    if s.off = s.len then .next (finish s)
    else
      match decodeInstr s.cursor with
      | .ok (i, _) => exec i s
      | .error e => .next (raise e s)

/-- `s` with the instruction of a table word where the next step fetches (log entry 6). -/
def State.withFetchWord (s : State) (nbits w : Nat) : State := placeAtFetch (tableBytes nbits w) s

end Sys2Proof.Machine
end

