-- ==== Sys2Proof/Machine/Flags.lean ====
section
/-! DEFINITION. The status encodings of R147. The block has no status flags or condition codes (R25), so
no flag computation stands here. -/

namespace Sys2Proof.Machine

/-- The code of `phase` in the status output (R147). -/
def phaseCode : Phase → Nat
  | .run => 0
  | .done => 1
  | .error => 2

/-- The code of an error kind in the status output (R147). -/
def errKindCode : Err → Nat
  | .underrun _ _ _ _ => 1
  | .unsupportedOpcode _ _ => 2
  | .invalidOperation _ _ _ => 3
  | .invalidAddressingMode _ => 4

/-- The code of `err` in the status output; `none` is code 0 (R147). -/
def errCode (e : Option Err) : Nat :=
  match e with
  | none => 0
  | some e => errKindCode e

end Sys2Proof.Machine
end

