-- ==== Sys2Proof/Machine/Render.lean ====
section
/-! DEFINITION. `render(rec)` (R146): the line as a function of the record and the parameters alone.
The meanings write their own lines; that the two agree is a statement. -/

namespace Sys2Proof.Machine

/-- The line of a Move record; `none` for a combination of fields that no rule builds (log entry 15). -/
def renderMove (p : Params) (r : MoveRecord) : Option String :=
  match r.form, r.common, r.data, r.opreg with
  | .regMemReg, some c, none, none =>
    if r.opcode = 0x8C#8 ∨ r.opcode = 0x8E#8 then
      some (lineDir "mov" r.d (segRegText p c.reg) (segRmText p c.rmField))
    else some (lineDir "mov" r.d (regText r.w c.reg) (rmText c.rmField r.w))
  | .immToReg, none, some v, some reg =>
    some (line2 "mov" (regText r.w reg) (decNat (asUnsigned16 v)))
  | .immToRegMem, some c, some v, none =>
    if c.mod = 0b11#2 then some (line2 "mov" (regText r.w c.rm) (decNat (asUnsigned16 v)))
    else some (line2 "mov" (memText c.rmField) (sizeText r.w ++ decNat (asUnsigned16 v)))
  | .memToAcc, none, some a, none => some (line2 "mov" "ax" (addrText a))
  | .accToMem, none, some a, none => some (line2 "mov" (addrText a) "ax")
  | _, _, _, _ => none

/-- The line of an Arithmetic record; `none` for a combination of fields that no rule builds. -/
def renderArith (p : Params) (r : ArithRecord) : Option String :=
  match r.form, r.common, r.data with
  | .regMemReg, some c, none =>
    some (lineDir (opName r.op) r.d (regText r.w c.reg) (rmText c.rmField r.w))
  | .immToRegMem, some c, some v =>
    if c.mod = 0b11#2 then some (line2 (opName r.op) (regText r.w c.rm) (immText p r.s r.w v))
    else some (line2 (opName r.op) (sizeText r.w ++ memText c.rmField) (immText p r.s r.w v))
  | .immToAcc, none, some v => some (line2 (opName r.op) (accText r.w) (decNat (asUnsigned16 v)))
  | _, _, _ => none

/-- The line of a JumpOrLoop record: the name from the opcode byte (R115). -/
def renderJump (p : Params) (r : JumpRecord) : String :=
  if r.opcode.extractLsb' 4 4 = 0b0111#4 then jumpText (jccName p (r.opcode.extractLsb' 0 4)) r.rel8
  else jumpText (loopName p (r.opcode.extractLsb' 0 2)) r.rel8

/-- `render(rec)` (R146). -/
def render (p : Params) (r : Record) : Option String :=
  match r with
  | .move r => renderMove p r
  | .arithmetic r => renderArith p r
  | .jumpOrLoop r => some (renderJump p r)

end Sys2Proof.Machine
end

