-- ==== Sys2Proof/Safety.lean ====
section
/-! DEFINITION. The terms that statements use: a state about to decode given bytes, a buffer that ends
inside them, the shape of a line, and the invariant of every reachable state. -/

namespace Sys2Proof.Machine

/-- The step is enabled and the next bytes of the buffer are `bytes`, all inside the buffer. -/
structure AtBytes (s : State) (bytes : List Byte) : Prop where
  running : s.phase = .run
  inside : s.off + bytes.length ≤ s.len
  bytes_eq : s.buf.slice s.off bytes.length = bytes

/-- The step is enabled and the buffer ends after some, but not all, of `bytes`. -/
structure CutShort (s : State) (bytes : List Byte) : Prop where
  running : s.phase = .run
  started : s.off < s.len
  short : s.len < s.off + bytes.length
  bytes_eq : s.buf.slice s.off (s.len - s.off) = bytes.take (s.len - s.off)

/-- `e` is the Underrun of R149 for an instruction whose reads, in stream order, have the sizes `reads`:
the read that fails is the first one that passes the end of the buffer. -/
def IsUnderrun (s : State) (reads : List Nat) (e : Err) : Prop :=
  ∃ k n, reads[k]? = some n ∧ s.off + (reads.take k).sum ≤ s.len ∧
    s.len < s.off + (reads.take k).sum + n ∧
    e = .underrun s.off (s.off + (reads.take k).sum) n (s.len - (s.off + (reads.take k).sum))

/-- The sizes of the displacement's reads (R57 to R61). -/
def dispReads (x : RmField) : List Nat := if dispLen x.mod x.rm = 0 then [] else [dispLen x.mod x.rm]

/-- The sizes of the reads of the forms with a mod-reg-rm byte and no immediate (R82, R90). -/
def rmReads (x : RmField) : List Nat := [1, 1] ++ dispReads x

/-- The sizes of the reads of the forms with a mod-reg-rm byte and an immediate (R86, R93). -/
def rmImmReads (x : RmField) (wide : Bool) : List Nat := [1, 1] ++ dispReads x ++ [immLen wide]

/-- What a rule of one instruction says, whole: the meaning answers `t s` in every state; a step whose
next bytes are the encoding does that; and where the buffer ends inside the encoding the step raises the
Underrun of the read that fails, which writes `phase` and `err` alone. -/
def RuleHolds (bytes : List Byte) (reads : List Nat) (i : Instr) (t : State → State) : Prop :=
  ∀ s : State, exec i s = .next (t s) ∧
    (AtBytes s bytes → step s = .next (t s)) ∧
    (CutShort s bytes → ∃ e, IsUnderrun s reads e ∧
      step s = .next { s with phase := .error, err := some e })

/-- The length formula of R67 on the opcode byte `b` and the byte `m` after it. -/
def lengthRule (b m : Byte) : Nat :=
  let v := b.toNat
  if (0x88 ≤ v ∧ v ≤ 0x8C) ∨ v = 0x8E ∨ v ≤ 0x03 ∨ (0x28 ≤ v ∧ v ≤ 0x2B) ∨ (0x38 ≤ v ∧ v ≤ 0x3B) then
    2 + dispLen (modOf m) (rmOf m)
  else if v = 0xC6 ∨ v = 0xC7 then 2 + dispLen (modOf m) (rmOf m) + 1 + (bitAt b 0).toNat
  else if 0x80 ≤ v ∧ v ≤ 0x83 then
    2 + dispLen (modOf m) (rmOf m) + (if bitAt b 1 = 0#1 ∧ bitAt b 0 = 1#1 then 2 else 1)
  else if 0xB0 ≤ v ∧ v ≤ 0xBF then 2 + (bitAt b 3).toNat
  else if 0xA0 ≤ v ∧ v ≤ 0xA3 then 3
  else if v = 0x04 ∨ v = 0x05 ∨ v = 0x2C ∨ v = 0x2D ∨ v = 0x3C ∨ v = 0x3D then 2 + (bitAt b 0).toNat
  else 2

/-- The illegal ranges of R68. -/
abbrev illegalByte (b : Byte) : Prop :=
  (0x06 ≤ b.toNat ∧ b.toNat ≤ 0x27) ∨ (0x2E ≤ b.toNat ∧ b.toNat ≤ 0x37) ∨ (0x3E ≤ b.toNat ∧ b.toNat ≤ 0x6F) ∨
    (0x84 ≤ b.toNat ∧ b.toNat ≤ 0x87) ∨ b.toNat = 0x8D ∨ (0x8F ≤ b.toNat ∧ b.toNat ≤ 0x9F) ∨
    (0xA4 ≤ b.toNat ∧ b.toNat ≤ 0xAF) ∨ (0xC0 ≤ b.toNat ∧ b.toNat ≤ 0xC5) ∨
    (0xC8 ≤ b.toNat ∧ b.toNat ≤ 0xDF) ∨ 0xE4 ≤ b.toNat

/-- The 70 first bytes that R52 lists. -/
abbrev acceptedByte (b : Byte) : Prop :=
  (0x88 ≤ b.toNat ∧ b.toNat ≤ 0x8C) ∨ b.toNat = 0x8E ∨ b.toNat = 0xC6 ∨ b.toNat = 0xC7 ∨
    (0xB0 ≤ b.toNat ∧ b.toNat ≤ 0xBF) ∨ (0xA0 ≤ b.toNat ∧ b.toNat ≤ 0xA3) ∨ b.toNat ≤ 0x05 ∨
    (0x28 ≤ b.toNat ∧ b.toNat ≤ 0x2D) ∨ (0x38 ≤ b.toNat ∧ b.toNat ≤ 0x3D) ∨
    (0x80 ≤ b.toNat ∧ b.toNat ≤ 0x83) ∨ (0x70 ≤ b.toNat ∧ b.toNat ≤ 0x7F) ∨
    (0xE0 ≤ b.toNat ∧ b.toNat ≤ 0xE3)

/-- Whether the accepted opcode byte is followed by a mod-reg-rm byte: formats `F_RM` and `F_RM_IMM`
(R49). -/
def hasModRegRm (b : Byte) : Bool :=
  b.toNat ≤ 0x03 || (0x28 ≤ b.toNat && b.toNat ≤ 0x2B) || (0x38 ≤ b.toNat && b.toNat ≤ 0x3B) ||
    (0x80 ≤ b.toNat && b.toNat ≤ 0x83) || (0x88 ≤ b.toNat && b.toNat ≤ 0x8C) || b.toNat = 0x8E ||
    b.toNat = 0xC6 || b.toNat = 0xC7

/-- The size of the immediate, address or offset that ends the instruction with the accepted opcode byte
`b`; 0 for format `F_RM` (R49, R63). -/
def tailLen (b : Byte) : Nat :=
  if b.toNat = 0xC6 ∨ b.toNat = 0xC7 then 1 + (bitAt b 0).toNat
  else if 0x80 ≤ b.toNat ∧ b.toNat ≤ 0x83 then (if bitAt b 1 = 0#1 ∧ bitAt b 0 = 1#1 then 2 else 1)
  else if 0xB0 ≤ b.toNat ∧ b.toNat ≤ 0xBF then 1 + (bitAt b 3).toNat
  else if 0xA0 ≤ b.toNat ∧ b.toNat ≤ 0xA3 then 2
  else if b.toNat = 0x04 ∨ b.toNat = 0x05 ∨ b.toNat = 0x2C ∨ b.toNat = 0x2D ∨ b.toNat = 0x3C ∨ b.toNat = 0x3D then
    1 + (bitAt b 0).toNat
  else if (0x70 ≤ b.toNat ∧ b.toNat ≤ 0x7F) ∨ 0xE0 ≤ b.toNat then 1
  else 0

/-- The step raises `e`: it writes `phase` and `err` and nothing else (R154). -/
def Raises (s : State) (e : Err) : Prop := step s = .next { s with phase := .error, err := some e }

/-- The sizes of the reads of an instruction in stream order, from the pseudocode of its rule. -/
def readsOf : Instr → List Nat
  | .movRmReg _ _ _ x => rmReads x
  | .movSegStore _ x => rmReads x
  | .movSegLoad _ x => rmReads x
  | .movRegImm w _ _ => [1, immLen (wideW w)]
  | .movRmImm w _ x _ => rmImmReads x (wideW w)
  | .movMemToAcc _ _ => [1, 2]
  | .movAccToMem _ _ => [1, 2]
  | .addRmReg _ _ _ x => rmReads x
  | .subRmReg _ _ _ x => rmReads x
  | .cmpRmReg _ _ _ x => rmReads x
  | .addRmImm s w x _ => rmImmReads x (wideSW s w)
  | .subRmImm s w x _ => rmImmReads x (wideSW s w)
  | .cmpRmImm s w x _ => rmImmReads x (wideSW s w)
  | .addAccImm w _ => [1, immLen (wideW w)]
  | .subAccImm w _ => [1, immLen (wideW w)]
  | .cmpAccImm w _ => [1, immLen (wideW w)]
  | .jo _ => [1, 1]
  | .jno _ => [1, 1]
  | .jb _ => [1, 1]
  | .jnb _ => [1, 1]
  | .jz _ => [1, 1]
  | .jnz _ => [1, 1]
  | .jbe _ => [1, 1]
  | .ja _ => [1, 1]
  | .js _ => [1, 1]
  | .jns _ => [1, 1]
  | .jp _ => [1, 1]
  | .jnp _ => [1, 1]
  | .jl _ => [1, 1]
  | .jnl _ => [1, 1]
  | .jle _ => [1, 1]
  | .jg _ => [1, 1]
  | .loopnz _ => [1, 1]
  | .loopz _ => [1, 1]
  | .loop _ => [1, 1]
  | .jcxz _ => [1, 1]

/-- A name of a mnemonic table as R75 wants it: not empty, lower-case letters only. -/
def nameOk (n : String) : Bool := !n.toList.isEmpty && n.toList.all fun c => 'a' ≤ c && c ≤ 'z'

/-- The mnemonic tables of the instance keep to R75. -/
def paramsOk (p : Params) : Bool := p.jccNames.toList.all nameOk && p.loopNames.toList.all nameOk

/-- A character a line may hold: printable ASCII (R19, R141). -/
def printable (c : Char) : Bool := ' ' ≤ c && c ≤ '~'

/-- The shape of a line (R19, R74, R141): not empty, printable ASCII with no line break, no space at
either end. -/
def lineOk (l : String) : Bool :=
  !l.toList.isEmpty && l.toList.all printable && l.toList.head? != some ' ' &&
    l.toList.getLast? != some ' '

/-- The payload of `err` fits the state it was raised in (R148 to R151). -/
def errMatches (s : State) : Err → Prop
  | .underrun io ro n av =>
    io = s.off ∧ s.off < ro ∧ ro ≤ s.len ∧ s.len < ro + n ∧ (n = 1 ∨ n = 2) ∧ av = s.len - ro
  | .unsupportedOpcode o b => o = s.off ∧ s.off < s.len ∧ b = s.buf.read s.off ∧ classify b = none
  | .invalidOperation io op reg =>
    io = s.off ∧ s.off + 1 < s.len ∧ op = s.buf.read s.off ∧ classify op = some .arithImmToRegMem ∧
      reg = regOf (s.buf.read (s.off + 1)) ∧ groupOp reg = none
  | .invalidAddressingMode _ => False

/-- What holds of every state a run reaches (R15, R19, R21, R22, R28, R140, R141, R146, R148 to R151). -/
structure Inv (s : State) : Prop where
  /-- The mnemonic tables of the instance keep to R75. -/
  params_ok : paramsOk s.params = true
  /-- The buffer is in canonical form. -/
  buf_wf : s.buf.wf = true
  /-- Every listed byte lies inside the buffer (R28). -/
  buf_below : s.buf.below s.len = true
  /-- R8: the buffer is within `P_MAX_LEN`. -/
  len_allowed : lenAllowed s.params s.len = true
  /-- R15: `off` never exceeds `len`. -/
  off_le : s.off ≤ s.len
  /-- R139: DONE is reached at the end of the stream only. -/
  done_at_end : s.phase = .done → s.off = s.len
  /-- R21: `err` holds an error exactly in ERROR. -/
  err_iff : s.err.isSome = true ↔ s.phase = .error
  /-- R148 to R151: the payload fits; InvalidAddressingMode is never there. -/
  err_ok : ∀ e, s.err = some e → errMatches s e
  /-- `last` is `none` exactly before the first instruction (R161). -/
  last_iff : s.last = none ↔ s.count = 0
  /-- R18: the last record ends at `off`, and its length is 2 to 6 (R46). -/
  last_ok : ∀ r, s.last = some r → r.start + r.len = s.off ∧ 2 ≤ r.len ∧ r.len ≤ 6
  /-- R144: each instruction took at least two bytes. -/
  count_le : 2 * s.count ≤ s.off
  /-- R140, R141: the text is the header and then `count` lines, each with its newline; R146: the last
  line is the rendering of the last record. -/
  text_ok : ∃ lines : List String, lines.length = s.count ∧ (∀ l ∈ lines, lineOk l = true) ∧
    s.text = header ++ String.join (lines.map (· ++ "\n")) ∧
    ∀ r, s.last = some r → render s.params r = lines.getLast?

/-- A safe end of a run (R142, R164): DONE, with the whole buffer consumed. -/
def Finished (s : State) : Prop := s.phase = .done ∧ s.off = s.len

end Sys2Proof.Machine
end

