-- ==== Sys2Proof/Certificates/Slice0/Obligations.lean ====
section
/-! DEFINITION. The statements for the provers. -/

open Sys2Proof Sys2Proof.Machine

/-! ### Encoding -/

/-- R47, R49: words written out bit by bit from the encodings of the spec, at least one per family. -/
def Obligations.DecodeReadsWordsWrittenOut : Prop :=
  decode [0b10001001#8, 0b11011001#8] = .ok (.movRmReg 0#1 1#1 0b011#3 ⟨0b11#2, 0b001#3, 0#16⟩, 2) ∧
  decode [0b10111001#8, 0b00001100#8, 0b00000000#8] = .ok (.movRegImm 1#1 0b001#3 12#16, 3) ∧
  decode [0b10001010#8, 0b01100000#8, 0b00000100#8] =
    .ok (.movRmReg 1#1 0#1 0b100#3 ⟨0b01#2, 0b000#3, 4#16⟩, 3) ∧
  decode [0b10001100#8, 0b00011110#8, 0b00000000#8, 0b00010000#8] =
    .ok (.movSegStore 0b011#3 ⟨0b00#2, 0b110#3, 4096#16⟩, 4) ∧
  decode [0b00000000#8, 0b11011000#8] = .ok (.addRmReg 0#1 0#1 0b011#3 ⟨0b11#2, 0b000#3, 0#16⟩, 2) ∧
  decode [0b10000011#8, 0b11000000#8, 0b00000101#8] = .ok (.addRmImm 1#1 1#1 ⟨0b11#2, 0b000#3, 0#16⟩ 5#16, 3) ∧
  decode [0b00111100#8, 0b10000000#8] = .ok (.cmpAccImm 0#1 128#16, 2) ∧
  decode [0b10100011#8, 0b11111010#8, 0b00001001#8] = .ok (.movAccToMem 1#1 2554#16, 3) ∧
  decode [0b01110100#8, 0b11111100#8] = .ok (.jz (-4), 2) ∧
  decode [0b11100011#8, 0b01111111#8] = .ok (.jcxz 127#8, 2)

/-- R53, R54, R55: the classifier's answer for each range of first bytes. -/
def Obligations.ClassifierAnswersByRange : Prop :=
  ∀ b : Byte,
    (classify b = some (.move .regMemReg) ↔ (0x88 ≤ b.toNat ∧ b.toNat ≤ 0x8C) ∨ b.toNat = 0x8E) ∧
    (classify b = some (.move .immToRegMem) ↔ 0xC6 ≤ b.toNat ∧ b.toNat ≤ 0xC7) ∧
    (classify b = some (.move .immToReg) ↔ 0xB0 ≤ b.toNat ∧ b.toNat ≤ 0xBF) ∧
    (classify b = some (.move .memToAcc) ↔ 0xA0 ≤ b.toNat ∧ b.toNat ≤ 0xA1) ∧
    (classify b = some (.move .accToMem) ↔ 0xA2 ≤ b.toNat ∧ b.toNat ≤ 0xA3) ∧
    (classify b = some (.arithRegMemReg .add) ↔ b.toNat ≤ 0x03) ∧
    (classify b = some (.arithImmToAcc .add) ↔ 0x04 ≤ b.toNat ∧ b.toNat ≤ 0x05) ∧
    (classify b = some (.arithRegMemReg .sub) ↔ 0x28 ≤ b.toNat ∧ b.toNat ≤ 0x2B) ∧
    (classify b = some (.arithImmToAcc .sub) ↔ 0x2C ≤ b.toNat ∧ b.toNat ≤ 0x2D) ∧
    (classify b = some (.arithRegMemReg .cmp) ↔ 0x38 ≤ b.toNat ∧ b.toNat ≤ 0x3B) ∧
    (classify b = some (.arithImmToAcc .cmp) ↔ 0x3C ≤ b.toNat ∧ b.toNat ≤ 0x3D) ∧
    (classify b = some .arithImmToRegMem ↔ 0x80 ≤ b.toNat ∧ b.toNat ≤ 0x83) ∧
    (classify b = some .jcc ↔ 0x70 ≤ b.toNat ∧ b.toNat ≤ 0x7F) ∧
    (classify b = some .loop ↔ 0xE0 ≤ b.toNat ∧ b.toNat ≤ 0xE3)

/-- R52 and R68, which the spec marks as derived: the 70 accepted first bytes, and the illegal ranges as the
other 186. R52's "30 bytes" for the Move family is a misprint of 28 (log entry 11). -/
def Obligations.IllegalRangesAreTheOtherBytes : Prop :=
  (∀ b : Byte, (illegalByte b ↔ ¬ acceptedByte b) ∧ (classify b = none ↔ illegalByte b)) ∧
  ((List.finRange 256).filter fun k => decide (acceptedByte (BitVec.ofFin k))).length = 70

/-- Decoding the encoding of any well-formed instruction gives it back, at any cursor that holds its
bytes and at the head of any byte list, with every operand at every value its encoding admits. -/
def Obligations.DecodeOfEncodeIsInstruction : Prop :=
  ∀ i : Instr, i.wf = true →
    (∀ c : Cursor, c.off + (encode i).length ≤ c.len → c.buf.slice c.off (encode i).length = encode i →
      decodeInstr c = .ok (i, { c with off := c.off + (encode i).length })) ∧
    ∀ rest : List Byte, decode (encode i ++ rest) = .ok (i, (encode i).length)

/-- The other direction: what the decoder answers is well-formed, and its encoding is exactly the bytes
consumed. -/
def Obligations.EncodeOfDecodeIsBytesConsumed : Prop :=
  ∀ (c c' : Cursor) (i : Instr), decodeInstr c = .ok (i, c') →
    i.wf = true ∧ c' = { c with off := c.off + (encode i).length } ∧ c'.off ≤ c.len ∧
      c.buf.slice c.off (encode i).length = encode i

/-- R67 and R46, which the spec marks as derived: a successful step moves the offset by exactly the length
formula on the opcode byte and the byte after it, which is 2 to 6. -/
def Obligations.StepAdvancesByLengthFormula : Prop :=
  ∀ s t : State, step s = .next t → t.phase = .run →
    t.off = s.off + lengthRule (s.buf.read s.off) (s.buf.read (s.off + 1)) ∧ s.off + 2 ≤ t.off ∧ t.off ≤ s.off + 6

/-- R29, R31 to R35: what each read primitive answers, byte order included, and the Underrun of a read that
passes the end of the buffer. A failing read answers no cursor: it consumes nothing. -/
def Obligations.ReadPrimitives : Prop :=
  ∀ c : Cursor,
    (∀ a, c.memRead8 a = if a + 1 > c.len then .error (.underrun c.start a 1 (c.len - a)) else .ok (c.buf.read a)) ∧
    (∀ a, (a + 2 > c.len → c.memRead16 a = .error (.underrun c.start a 2 (c.len - a))) ∧
      (a + 2 ≤ c.len → ∃ v : Word, c.memRead16 a = .ok v ∧
        v.toNat = (c.buf.read a).toNat + 256 * (c.buf.read (a + 1)).toNat)) ∧
    (∀ n, (c.off + n > c.len → c.peek n true = .error (.underrun c.start c.off n (c.len - c.off))) ∧
      (∀ exact, (exact = true → c.off + n ≤ c.len) → ∃ bs, c.peek n exact = .ok bs ∧
        bs.length = min (c.off + n) c.len - c.off ∧ ∀ k, k < bs.length → bs[k]? = some (c.buf.read (c.off + k)))) ∧
    (c.off < c.len →
      c.readU8 = .ok (c.buf.read c.off, { c with off := c.off + 1 }) ∧
      (∃ v : Byte, c.readI8 = .ok (v, { c with off := c.off + 1 }) ∧
        asSigned8 v = if (c.buf.read c.off).toNat < 128 then ((c.buf.read c.off).toNat : Int)
          else (c.buf.read c.off).toNat - 256) ∧
      (∃ v : Word, c.readU16OrU8 false = .ok (v, { c with off := c.off + 1 }) ∧
        v.toNat = (c.buf.read c.off).toNat)) ∧
    (c.off + 2 ≤ c.len →
      (∃ v : Word, c.readU16 = .ok (v, { c with off := c.off + 2 }) ∧
        v.toNat = (c.buf.read c.off).toNat + 256 * (c.buf.read (c.off + 1)).toNat) ∧
      c.readU16OrU8 true = c.readU16) ∧
    (c.len < c.off + 1 →
      c.readU8 = .error (.underrun c.start c.off 1 (c.len - c.off)) ∧
      c.readI8 = .error (.underrun c.start c.off 1 (c.len - c.off)) ∧
      c.readU16OrU8 false = .error (.underrun c.start c.off 1 (c.len - c.off))) ∧
    (c.len < c.off + 2 →
      c.readU16 = .error (.underrun c.start c.off 2 (c.len - c.off)) ∧
      c.readU16OrU8 true = .error (.underrun c.start c.off 2 (c.len - c.off)))

/-- R57 to R61: the common fields and the displacement read for each `mod` and `rm`, and the Underrun of a
missing byte. -/
def Obligations.CommonFieldsDecoded : Prop :=
  ∀ (c : Cursor),
    let m := c.buf.read c.off
    (c.len < c.off + 1 → decodeCommon c = .error (.underrun c.start c.off 1 (c.len - c.off))) ∧
    (c.off < c.len → modOf m = 0b01#2 →
      (c.off + 2 ≤ c.len → ∃ disp : Word, decodeCommon c =
          .ok (⟨modOf m, regOf m, rmOf m, disp⟩, { c with off := c.off + 2 }) ∧
        disp.toInt = (c.buf.read (c.off + 1)).toInt) ∧
      (c.len < c.off + 2 → decodeCommon c = .error (.underrun c.start (c.off + 1) 1 (c.len - (c.off + 1))))) ∧
    (c.off < c.len → (modOf m = 0b10#2 ∨ (modOf m = 0b00#2 ∧ rmOf m = 0b110#3)) →
      (c.off + 3 ≤ c.len → ∃ disp : Word, decodeCommon c =
          .ok (⟨modOf m, regOf m, rmOf m, disp⟩, { c with off := c.off + 3 }) ∧
        disp.toNat = (c.buf.read (c.off + 1)).toNat + 256 * (c.buf.read (c.off + 2)).toNat) ∧
      (c.len < c.off + 3 → decodeCommon c = .error (.underrun c.start (c.off + 1) 2 (c.len - (c.off + 1))))) ∧
    (c.off < c.len → (modOf m = 0b11#2 ∨ (modOf m = 0b00#2 ∧ rmOf m ≠ 0b110#3)) →
      decodeCommon c = .ok (⟨modOf m, regOf m, rmOf m, 0#16⟩, { c with off := c.off + 1 }))

/-! ### Operands -/

/-- R12: the decimal text of a natural number is ASCII digits whose value is the number, with no leading
zero; that of an integer has a leading `-` for a negative one and no sign otherwise. -/
def Obligations.DecimalTextIsPlain : Prop :=
  (∀ n : Nat,
    (∀ c ∈ (decNat n).toList, '0' ≤ c ∧ c ≤ '9') ∧
    (decNat n).toList.foldl (fun v c => 10 * v + (c.toNat - 48)) 0 = n ∧
    (decNat n).toList ≠ [] ∧
    ((decNat n).toList.head? = some '0' → decNat n = "0")) ∧
  ∀ n : Nat, decInt (n : Int) = decNat n ∧ (0 < n → decInt (-(n : Int)) = "-" ++ decNat n)

/-- R106, R109, R110: the text of the r/m operand in every case of `mod`, `rm` and the displacement; the
magnitude of a negative displacement does not wrap (the spec's decision D13). -/
def Obligations.MemoryOperandText : Prop :=
  ∀ (x : RmField) (w : Bit),
    (x.mod = 0b11#2 → rmText x w = regText w x.rm) ∧
    (x.mod = 0b00#2 → x.rm = 0b110#3 → rmText x w = "[" ++ decNat x.disp.toNat ++ "]") ∧
    (x.mod = 0b00#2 → x.rm ≠ 0b110#3 → rmText x w = "[" ++ eaText x.rm ++ "]") ∧
    (x.mod = 0b01#2 ∨ x.mod = 0b10#2 →
      (x.disp.toInt = 0 → rmText x w = "[" ++ eaText x.rm ++ "]") ∧
      (∀ n : Nat, 0 < n → x.disp.toInt = n → rmText x w = "[" ++ eaText x.rm ++ " + " ++ decNat n ++ "]") ∧
      (∀ n : Nat, 0 < n → x.disp.toInt = -n → n ≤ 32768 ∧
        rmText x w = "[" ++ eaText x.rm ++ " - " ++ decNat n ++ "]"))

/-- R113, which the spec marks as derived: every r/m operand has a non-empty text. That the text is printable
ASCII with no space at either end is read from R19 and R74. -/
def Obligations.OperandTextIsNeverEmpty : Prop :=
  ∀ (x : RmField) (w : Bit), lineOk (rmText x w) = true

/-- The tables of R101 and R102, entry by entry, each base expression as the names of its base and index
registers, and the segment names of R83, the table and the name that bits 1:0 of each `reg` select. Most
entries are the spec's decisions D10, D11 and D27, from general knowledge (log entry 3). -/
def Obligations.OperandTables : Prop :=
  (List.finRange 8).map (fun k => regText 0#1 (BitVec.ofFin k)) =
    ["al", "cl", "dl", "bl", "ah", "ch", "dh", "bh"] ∧
  (List.finRange 8).map (fun k => regText 1#1 (BitVec.ofFin k)) =
    ["ax", "cx", "dx", "bx", "sp", "bp", "si", "di"] ∧
  (List.finRange 8).map (fun k => eaText (BitVec.ofFin k)) =
    ["bx + si", "bx + di", "bp + si", "bp + di", "si", "di", "bp", "bx"] ∧
  (∀ rm : RegCode, eaText rm = match eaBase rm, eaIndex rm with
    | some b, some i => regText 1#1 b ++ " + " ++ regText 1#1 i
    | some b, none => regText 1#1 b
    | none, some i => regText 1#1 i
    | none, none => "") ∧
  sregTable.toList = ["es", "cs", "ss", "ds"] ∧
  (List.finRange 8).map (fun k => sregName (BitVec.ofFin k)) =
    ["es", "cs", "ss", "ds", "es", "cs", "ss", "ds"]

/-- R94: the text of the 80-83 group's immediate for each parameter value; a byte up to 127 has one text. The
parameter is the spec's decision D12. -/
def Obligations.GroupImmediateText : Prop :=
  ∀ (p : Params) (v : Word),
    (∀ s w : Bit, ¬ (s = 1#1 ∧ w = 1#1) → immText p s w v = decNat v.toNat) ∧
    (v.toNat < 256 →
      (p.imm8sText = .signed → v.toNat < 128 → immText p 1#1 1#1 v = decNat v.toNat) ∧
      (p.imm8sText = .signed → 128 ≤ v.toNat → immText p 1#1 1#1 v = "-" ++ decNat (256 - v.toNat)) ∧
      (p.imm8sText = .wordUnsigned → v.toNat < 128 → immText p 1#1 1#1 v = decNat v.toNat) ∧
      (p.imm8sText = .wordUnsigned → 128 ≤ v.toNat → immText p 1#1 1#1 v = decNat (65280 + v.toNat)) ∧
      (p.imm8sText = .byteUnsigned → immText p 1#1 1#1 v = decNat v.toNat))

/-! ### The rules of the instructions -/

/-- R82: 88-8B, whole: the encoding, the line, the record, the exception. The payload of the Underrun, here and
in the statements below, is the one R149 gives (the spec's decision D4). -/
def Obligations.MovRegisterMemoryRule : Prop :=
  ∀ (d w : Bit) (reg : RegCode) (x : RmField), x.wf = true →
  RuleHolds ([0b100010#6 ++ d ++ w, modRegRm x.mod reg x.rm] ++ dispBytes x) (rmReads x) (.movRmReg d w reg x)
    (fun s => { s with
      off := s.off + (2 + dispLen x.mod x.rm)
      text := s.text ++ (if d = 1#1 then "mov " ++ regText w reg ++ ", " ++ rmText x w
        else "mov " ++ rmText x w ++ ", " ++ regText w reg) ++ "\n"
      count := s.count + 1
      last := some (.move { form := .regMemReg, common := some ⟨x.mod, reg, x.rm, x.disp⟩, data := none, opcode := 0b100010#6 ++ d ++ w, d := d, w := w, opreg := none, dataWide := false, start := s.off, len := 2 + dispLen x.mod x.rm }) })

/-- R83 and R84: 8C and 8E, under both values of `P_SREG_TEXT` (the spec's decision D27). That the record keeps
w = 0 under `segment` too is read from R82's pseudocode (log entry 19). The entries of `sregTable` are stated
in `OperandTables`. -/
def Obligations.MovSegmentFormsRule : Prop :=
  ∀ (reg : RegCode) (x : RmField), x.wf = true →
  RuleHolds ([0b10001100#8, modRegRm x.mod reg x.rm] ++ dispBytes x) (rmReads x) (.movSegStore reg x)
    (fun s =>
      let R := match s.params.sregText with
        | .general => regText 0#1 reg
        | .segment => sregTable[(reg.extractLsb' 0 2).toNat]'(by have := (reg.extractLsb' 0 2).isLt; omega)
      let X := match s.params.sregText with
        | .general => rmText x 0#1
        | .segment => rmText x 1#1
      { s with
        off := s.off + (2 + dispLen x.mod x.rm)
        text := s.text ++ ("mov " ++ X ++ ", " ++ R) ++ "\n"
        count := s.count + 1
        last := some (.move { form := .regMemReg, common := some ⟨x.mod, reg, x.rm, x.disp⟩, data := none, opcode := 0b10001100#8, d := 0#1, w := 0#1, opreg := none, dataWide := false, start := s.off, len := 2 + dispLen x.mod x.rm }) }) ∧
  RuleHolds ([0b10001110#8, modRegRm x.mod reg x.rm] ++ dispBytes x) (rmReads x) (.movSegLoad reg x)
    (fun s =>
      let R := match s.params.sregText with
        | .general => regText 0#1 reg
        | .segment => sregTable[(reg.extractLsb' 0 2).toNat]'(by have := (reg.extractLsb' 0 2).isLt; omega)
      let X := match s.params.sregText with
        | .general => rmText x 0#1
        | .segment => rmText x 1#1
      { s with
        off := s.off + (2 + dispLen x.mod x.rm)
        text := s.text ++ ("mov " ++ R ++ ", " ++ X) ++ "\n"
        count := s.count + 1
        last := some (.move { form := .regMemReg, common := some ⟨x.mod, reg, x.rm, x.disp⟩, data := none, opcode := 0b10001110#8, d := 1#1, w := 0#1, opreg := none, dataWide := false, start := s.off, len := 2 + dispLen x.mod x.rm }) })

/-- R85: B0-BF, whole. -/
def Obligations.MovImmediateToRegisterRule : Prop :=
  ∀ (w : Bit) (reg : RegCode) (imm : Word), immFits (wideW w) imm = true →
  RuleHolds ([0b1011#4 ++ w ++ reg] ++ immBytes (wideW w) imm) [1, immLen (wideW w)] (.movRegImm w reg imm)
    (fun s => { s with
      off := s.off + (1 + immLen (wideW w))
      text := s.text ++ ("mov " ++ regText w reg ++ ", " ++ decNat imm.toNat) ++ "\n"
      count := s.count + 1
      last := some (.move { form := .immToReg, common := none, data := some imm, opcode := 0b1011#4 ++ w ++ reg, d := 0#1, w := w, opreg := some reg, dataWide := wideW w, start := s.off, len := 1 + immLen (wideW w) }) })

/-- R86: C6-C7, whole; the `reg` field is any value and changes the record's common fields only. -/
def Obligations.MovImmediateToRegisterMemoryRule : Prop :=
  ∀ (w : Bit) (reg : RegCode) (x : RmField) (imm : Word), x.wf = true → immFits (wideW w) imm = true →
  RuleHolds ([0b1100011#7 ++ w, modRegRm x.mod reg x.rm] ++ dispBytes x ++ immBytes (wideW w) imm)
    (rmImmReads x (wideW w)) (.movRmImm w reg x imm)
    (fun s => { s with
      off := s.off + (2 + dispLen x.mod x.rm + immLen (wideW w))
      text := s.text ++ (if x.mod = 0b11#2 then "mov " ++ regText w x.rm ++ ", " ++ decNat imm.toNat
        else "mov " ++ rmText x w ++ ", " ++ ((if w = 1#1 then "word " else "byte ") ++ decNat imm.toNat)) ++ "\n"
      count := s.count + 1
      last := some (.move { form := .immToRegMem, common := some ⟨x.mod, reg, x.rm, x.disp⟩, data := some imm, opcode := 0b1100011#7 ++ w, d := 0#1, w := w, opreg := none, dataWide := wideW w, start := s.off, len := 2 + dispLen x.mod x.rm + immLen (wideW w) }) })

/-- R87 and R88: A0-A3, whole; the accumulator is `ax` for both widths. -/
def Obligations.MovAccumulatorRules : Prop :=
  ∀ (w : Bit) (addr : Word),
  RuleHolds [0b1010000#7 ++ w, loByte addr, hiByte addr] [1, 2] (.movMemToAcc w addr)
    (fun s => { s with
      off := s.off + 3
      text := s.text ++ ("mov ax, " ++ ("[" ++ decNat addr.toNat ++ "]")) ++ "\n"
      count := s.count + 1
      last := some (.move { form := .memToAcc, common := none, data := some addr, opcode := 0b1010000#7 ++ w, d := 0#1, w := w, opreg := none, dataWide := true, start := s.off, len := 3 }) }) ∧
  RuleHolds [0b1010001#7 ++ w, loByte addr, hiByte addr] [1, 2] (.movAccToMem w addr)
    (fun s => { s with
      off := s.off + 3
      text := s.text ++ ("mov " ++ ("[" ++ decNat addr.toNat ++ "]") ++ ", ax") ++ "\n"
      count := s.count + 1
      last := some (.move { form := .accToMem, common := none, data := some addr, opcode := 0b1010001#7 ++ w, d := 0#1, w := w, opreg := none, dataWide := true, start := s.off, len := 3 }) })

/-- R90 to R92: ADD, SUB and CMP between register and register/memory, whole. -/
def Obligations.ArithmeticRegisterMemoryRules : Prop :=
  ∀ (d w : Bit) (reg : RegCode) (x : RmField), x.wf = true →
  RuleHolds ([0b000000#6 ++ d ++ w, modRegRm x.mod reg x.rm] ++ dispBytes x) (rmReads x) (.addRmReg d w reg x)
    (fun s => { s with
      off := s.off + (2 + dispLen x.mod x.rm)
      text := s.text ++ (if d = 1#1 then "add " ++ regText w reg ++ ", " ++ rmText x w
        else "add " ++ rmText x w ++ ", " ++ regText w reg) ++ "\n"
      count := s.count + 1
      last := some (.arithmetic { form := .regMemReg, op := .add, common := some ⟨x.mod, reg, x.rm, x.disp⟩, data := none, d := d, s := 0#1, w := w, opcode := 0b000000#6 ++ d ++ w, dataWide := false, start := s.off, len := 2 + dispLen x.mod x.rm }) }) ∧
  RuleHolds ([0b001010#6 ++ d ++ w, modRegRm x.mod reg x.rm] ++ dispBytes x) (rmReads x) (.subRmReg d w reg x)
    (fun s => { s with
      off := s.off + (2 + dispLen x.mod x.rm)
      text := s.text ++ (if d = 1#1 then "sub " ++ regText w reg ++ ", " ++ rmText x w
        else "sub " ++ rmText x w ++ ", " ++ regText w reg) ++ "\n"
      count := s.count + 1
      last := some (.arithmetic { form := .regMemReg, op := .sub, common := some ⟨x.mod, reg, x.rm, x.disp⟩, data := none, d := d, s := 0#1, w := w, opcode := 0b001010#6 ++ d ++ w, dataWide := false, start := s.off, len := 2 + dispLen x.mod x.rm }) }) ∧
  RuleHolds ([0b001110#6 ++ d ++ w, modRegRm x.mod reg x.rm] ++ dispBytes x) (rmReads x) (.cmpRmReg d w reg x)
    (fun s => { s with
      off := s.off + (2 + dispLen x.mod x.rm)
      text := s.text ++ (if d = 1#1 then "cmp " ++ regText w reg ++ ", " ++ rmText x w
        else "cmp " ++ rmText x w ++ ", " ++ regText w reg) ++ "\n"
      count := s.count + 1
      last := some (.arithmetic { form := .regMemReg, op := .cmp, common := some ⟨x.mod, reg, x.rm, x.disp⟩, data := none, d := d, s := 0#1, w := w, opcode := 0b001110#6 ++ d ++ w, dataWide := false, start := s.off, len := 2 + dispLen x.mod x.rm }) })

/-- R95 to R97: ADD, SUB and CMP of the 80-83 group, whole, with the qualifier's place from R93. -/
def Obligations.ArithmeticImmediateRules : Prop :=
  ∀ (sx w : Bit) (x : RmField) (imm : Word), x.wf = true → immFits (wideSW sx w) imm = true →
  RuleHolds ([0b100000#6 ++ sx ++ w, modRegRm x.mod 0b000#3 x.rm] ++ dispBytes x ++ immBytes (wideSW sx w) imm)
    (rmImmReads x (wideSW sx w)) (.addRmImm sx w x imm)
    (fun s => { s with
      off := s.off + (2 + dispLen x.mod x.rm + immLen (wideSW sx w))
      text := s.text ++ (if x.mod = 0b11#2 then "add " ++ regText w x.rm ++ ", " ++ immText s.params sx w imm
        else "add " ++ ((if w = 1#1 then "word " else "byte ") ++ rmText x w) ++ ", " ++
          immText s.params sx w imm) ++ "\n"
      count := s.count + 1
      last := some (.arithmetic { form := .immToRegMem, op := .add, common := some ⟨x.mod, 0b000#3, x.rm, x.disp⟩, data := some imm, d := 0#1, s := sx, w := w, opcode := 0b100000#6 ++ sx ++ w, dataWide := wideSW sx w, start := s.off, len := 2 + dispLen x.mod x.rm + immLen (wideSW sx w) }) }) ∧
  RuleHolds ([0b100000#6 ++ sx ++ w, modRegRm x.mod 0b101#3 x.rm] ++ dispBytes x ++ immBytes (wideSW sx w) imm)
    (rmImmReads x (wideSW sx w)) (.subRmImm sx w x imm)
    (fun s => { s with
      off := s.off + (2 + dispLen x.mod x.rm + immLen (wideSW sx w))
      text := s.text ++ (if x.mod = 0b11#2 then "sub " ++ regText w x.rm ++ ", " ++ immText s.params sx w imm
        else "sub " ++ ((if w = 1#1 then "word " else "byte ") ++ rmText x w) ++ ", " ++
          immText s.params sx w imm) ++ "\n"
      count := s.count + 1
      last := some (.arithmetic { form := .immToRegMem, op := .sub, common := some ⟨x.mod, 0b101#3, x.rm, x.disp⟩, data := some imm, d := 0#1, s := sx, w := w, opcode := 0b100000#6 ++ sx ++ w, dataWide := wideSW sx w, start := s.off, len := 2 + dispLen x.mod x.rm + immLen (wideSW sx w) }) }) ∧
  RuleHolds ([0b100000#6 ++ sx ++ w, modRegRm x.mod 0b111#3 x.rm] ++ dispBytes x ++ immBytes (wideSW sx w) imm)
    (rmImmReads x (wideSW sx w)) (.cmpRmImm sx w x imm)
    (fun s => { s with
      off := s.off + (2 + dispLen x.mod x.rm + immLen (wideSW sx w))
      text := s.text ++ (if x.mod = 0b11#2 then "cmp " ++ regText w x.rm ++ ", " ++ immText s.params sx w imm
        else "cmp " ++ ((if w = 1#1 then "word " else "byte ") ++ rmText x w) ++ ", " ++
          immText s.params sx w imm) ++ "\n"
      count := s.count + 1
      last := some (.arithmetic { form := .immToRegMem, op := .cmp, common := some ⟨x.mod, 0b111#3, x.rm, x.disp⟩, data := some imm, d := 0#1, s := sx, w := w, opcode := 0b100000#6 ++ sx ++ w, dataWide := wideSW sx w, start := s.off, len := 2 + dispLen x.mod x.rm + immLen (wideSW sx w) }) })

/-- R98 to R100: ADD, SUB and CMP with the accumulator, whole. -/
def Obligations.ArithmeticAccumulatorRules : Prop :=
  ∀ (w : Bit) (imm : Word), immFits (wideW w) imm = true →
  RuleHolds ([0b0000010#7 ++ w] ++ immBytes (wideW w) imm) [1, immLen (wideW w)] (.addAccImm w imm)
    (fun s => { s with
      off := s.off + (1 + immLen (wideW w))
      text := s.text ++ ("add " ++ (if w = 1#1 then "ax" else "al") ++ ", " ++ decNat imm.toNat) ++ "\n"
      count := s.count + 1
      last := some (.arithmetic { form := .immToAcc, op := .add, common := none, data := some imm, d := 0#1, s := 0#1, w := w, opcode := 0b0000010#7 ++ w, dataWide := wideW w, start := s.off, len := 1 + immLen (wideW w) }) }) ∧
  RuleHolds ([0b0010110#7 ++ w] ++ immBytes (wideW w) imm) [1, immLen (wideW w)] (.subAccImm w imm)
    (fun s => { s with
      off := s.off + (1 + immLen (wideW w))
      text := s.text ++ ("sub " ++ (if w = 1#1 then "ax" else "al") ++ ", " ++ decNat imm.toNat) ++ "\n"
      count := s.count + 1
      last := some (.arithmetic { form := .immToAcc, op := .sub, common := none, data := some imm, d := 0#1, s := 0#1, w := w, opcode := 0b0010110#7 ++ w, dataWide := wideW w, start := s.off, len := 1 + immLen (wideW w) }) }) ∧
  RuleHolds ([0b0011110#7 ++ w] ++ immBytes (wideW w) imm) [1, immLen (wideW w)] (.cmpAccImm w imm)
    (fun s => { s with
      off := s.off + (1 + immLen (wideW w))
      text := s.text ++ ("cmp " ++ (if w = 1#1 then "ax" else "al") ++ ", " ++ decNat imm.toNat) ++ "\n"
      count := s.count + 1
      last := some (.arithmetic { form := .immToAcc, op := .cmp, common := none, data := some imm, d := 0#1, s := 0#1, w := w, opcode := 0b0011110#7 ++ w, dataWide := wideW w, start := s.off, len := 1 + immLen (wideW w) }) })

/-- R118 to R125: 70-77, whole; the name is the entry of the instance's table (R117), the text that of R116.
The default names are the spec's decision D8 (log entry 2), the `+` of a zero offset its decision D29. -/
def Obligations.ConditionalJumpRulesLow : Prop :=
  ∀ rel8 : Byte,
  RuleHolds [0x70#8, rel8] [1, 1] (.jo rel8)
    (fun s => { s with
      off := s.off + 2
      text := s.text ++ (s.params.jccNames[0] ++ " $+2" ++ (if 0 ≤ rel8.toInt then "+" else "-") ++
        decNat rel8.toInt.natAbs) ++ "\n"
      count := s.count + 1
      last := some (.jumpOrLoop { opcode := 0x70#8, rel8 := rel8, start := s.off, len := 2 }) }) ∧
  RuleHolds [0x71#8, rel8] [1, 1] (.jno rel8)
    (fun s => { s with
      off := s.off + 2
      text := s.text ++ (s.params.jccNames[1] ++ " $+2" ++ (if 0 ≤ rel8.toInt then "+" else "-") ++
        decNat rel8.toInt.natAbs) ++ "\n"
      count := s.count + 1
      last := some (.jumpOrLoop { opcode := 0x71#8, rel8 := rel8, start := s.off, len := 2 }) }) ∧
  RuleHolds [0x72#8, rel8] [1, 1] (.jb rel8)
    (fun s => { s with
      off := s.off + 2
      text := s.text ++ (s.params.jccNames[2] ++ " $+2" ++ (if 0 ≤ rel8.toInt then "+" else "-") ++
        decNat rel8.toInt.natAbs) ++ "\n"
      count := s.count + 1
      last := some (.jumpOrLoop { opcode := 0x72#8, rel8 := rel8, start := s.off, len := 2 }) }) ∧
  RuleHolds [0x73#8, rel8] [1, 1] (.jnb rel8)
    (fun s => { s with
      off := s.off + 2
      text := s.text ++ (s.params.jccNames[3] ++ " $+2" ++ (if 0 ≤ rel8.toInt then "+" else "-") ++
        decNat rel8.toInt.natAbs) ++ "\n"
      count := s.count + 1
      last := some (.jumpOrLoop { opcode := 0x73#8, rel8 := rel8, start := s.off, len := 2 }) }) ∧
  RuleHolds [0x74#8, rel8] [1, 1] (.jz rel8)
    (fun s => { s with
      off := s.off + 2
      text := s.text ++ (s.params.jccNames[4] ++ " $+2" ++ (if 0 ≤ rel8.toInt then "+" else "-") ++
        decNat rel8.toInt.natAbs) ++ "\n"
      count := s.count + 1
      last := some (.jumpOrLoop { opcode := 0x74#8, rel8 := rel8, start := s.off, len := 2 }) }) ∧
  RuleHolds [0x75#8, rel8] [1, 1] (.jnz rel8)
    (fun s => { s with
      off := s.off + 2
      text := s.text ++ (s.params.jccNames[5] ++ " $+2" ++ (if 0 ≤ rel8.toInt then "+" else "-") ++
        decNat rel8.toInt.natAbs) ++ "\n"
      count := s.count + 1
      last := some (.jumpOrLoop { opcode := 0x75#8, rel8 := rel8, start := s.off, len := 2 }) }) ∧
  RuleHolds [0x76#8, rel8] [1, 1] (.jbe rel8)
    (fun s => { s with
      off := s.off + 2
      text := s.text ++ (s.params.jccNames[6] ++ " $+2" ++ (if 0 ≤ rel8.toInt then "+" else "-") ++
        decNat rel8.toInt.natAbs) ++ "\n"
      count := s.count + 1
      last := some (.jumpOrLoop { opcode := 0x76#8, rel8 := rel8, start := s.off, len := 2 }) }) ∧
  RuleHolds [0x77#8, rel8] [1, 1] (.ja rel8)
    (fun s => { s with
      off := s.off + 2
      text := s.text ++ (s.params.jccNames[7] ++ " $+2" ++ (if 0 ≤ rel8.toInt then "+" else "-") ++
        decNat rel8.toInt.natAbs) ++ "\n"
      count := s.count + 1
      last := some (.jumpOrLoop { opcode := 0x77#8, rel8 := rel8, start := s.off, len := 2 }) }) ∧
  defaultJccNames.toList.take 8 = ["jo", "jno", "jb", "jnb", "jz", "jnz", "jbe", "ja"]

/-- R126 to R133: 78-7F, whole. The default names are the spec's decision D8 (log entry 2), the `+` of a zero
offset its decision D29. -/
def Obligations.ConditionalJumpRulesHigh : Prop :=
  ∀ rel8 : Byte,
  RuleHolds [0x78#8, rel8] [1, 1] (.js rel8)
    (fun s => { s with
      off := s.off + 2
      text := s.text ++ (s.params.jccNames[8] ++ " $+2" ++ (if 0 ≤ rel8.toInt then "+" else "-") ++
        decNat rel8.toInt.natAbs) ++ "\n"
      count := s.count + 1
      last := some (.jumpOrLoop { opcode := 0x78#8, rel8 := rel8, start := s.off, len := 2 }) }) ∧
  RuleHolds [0x79#8, rel8] [1, 1] (.jns rel8)
    (fun s => { s with
      off := s.off + 2
      text := s.text ++ (s.params.jccNames[9] ++ " $+2" ++ (if 0 ≤ rel8.toInt then "+" else "-") ++
        decNat rel8.toInt.natAbs) ++ "\n"
      count := s.count + 1
      last := some (.jumpOrLoop { opcode := 0x79#8, rel8 := rel8, start := s.off, len := 2 }) }) ∧
  RuleHolds [0x7A#8, rel8] [1, 1] (.jp rel8)
    (fun s => { s with
      off := s.off + 2
      text := s.text ++ (s.params.jccNames[10] ++ " $+2" ++ (if 0 ≤ rel8.toInt then "+" else "-") ++
        decNat rel8.toInt.natAbs) ++ "\n"
      count := s.count + 1
      last := some (.jumpOrLoop { opcode := 0x7A#8, rel8 := rel8, start := s.off, len := 2 }) }) ∧
  RuleHolds [0x7B#8, rel8] [1, 1] (.jnp rel8)
    (fun s => { s with
      off := s.off + 2
      text := s.text ++ (s.params.jccNames[11] ++ " $+2" ++ (if 0 ≤ rel8.toInt then "+" else "-") ++
        decNat rel8.toInt.natAbs) ++ "\n"
      count := s.count + 1
      last := some (.jumpOrLoop { opcode := 0x7B#8, rel8 := rel8, start := s.off, len := 2 }) }) ∧
  RuleHolds [0x7C#8, rel8] [1, 1] (.jl rel8)
    (fun s => { s with
      off := s.off + 2
      text := s.text ++ (s.params.jccNames[12] ++ " $+2" ++ (if 0 ≤ rel8.toInt then "+" else "-") ++
        decNat rel8.toInt.natAbs) ++ "\n"
      count := s.count + 1
      last := some (.jumpOrLoop { opcode := 0x7C#8, rel8 := rel8, start := s.off, len := 2 }) }) ∧
  RuleHolds [0x7D#8, rel8] [1, 1] (.jnl rel8)
    (fun s => { s with
      off := s.off + 2
      text := s.text ++ (s.params.jccNames[13] ++ " $+2" ++ (if 0 ≤ rel8.toInt then "+" else "-") ++
        decNat rel8.toInt.natAbs) ++ "\n"
      count := s.count + 1
      last := some (.jumpOrLoop { opcode := 0x7D#8, rel8 := rel8, start := s.off, len := 2 }) }) ∧
  RuleHolds [0x7E#8, rel8] [1, 1] (.jle rel8)
    (fun s => { s with
      off := s.off + 2
      text := s.text ++ (s.params.jccNames[14] ++ " $+2" ++ (if 0 ≤ rel8.toInt then "+" else "-") ++
        decNat rel8.toInt.natAbs) ++ "\n"
      count := s.count + 1
      last := some (.jumpOrLoop { opcode := 0x7E#8, rel8 := rel8, start := s.off, len := 2 }) }) ∧
  RuleHolds [0x7F#8, rel8] [1, 1] (.jg rel8)
    (fun s => { s with
      off := s.off + 2
      text := s.text ++ (s.params.jccNames[15] ++ " $+2" ++ (if 0 ≤ rel8.toInt then "+" else "-") ++
        decNat rel8.toInt.natAbs) ++ "\n"
      count := s.count + 1
      last := some (.jumpOrLoop { opcode := 0x7F#8, rel8 := rel8, start := s.off, len := 2 }) }) ∧
  defaultJccNames.toList.drop 8 = ["js", "jns", "jp", "jnp", "jl", "jnl", "jle", "jg"]

/-- R135 to R138: E0-E3, whole; decoded, not performed. The default names are the spec's decision D9 (log
entry 2), the `+` of a zero offset its decision D29. -/
def Obligations.LoopFormRules : Prop :=
  ∀ rel8 : Byte,
  RuleHolds [0xE0#8, rel8] [1, 1] (.loopnz rel8)
    (fun s => { s with
      off := s.off + 2
      text := s.text ++ (s.params.loopNames[0] ++ " $+2" ++ (if 0 ≤ rel8.toInt then "+" else "-") ++
        decNat rel8.toInt.natAbs) ++ "\n"
      count := s.count + 1
      last := some (.jumpOrLoop { opcode := 0xE0#8, rel8 := rel8, start := s.off, len := 2 }) }) ∧
  RuleHolds [0xE1#8, rel8] [1, 1] (.loopz rel8)
    (fun s => { s with
      off := s.off + 2
      text := s.text ++ (s.params.loopNames[1] ++ " $+2" ++ (if 0 ≤ rel8.toInt then "+" else "-") ++
        decNat rel8.toInt.natAbs) ++ "\n"
      count := s.count + 1
      last := some (.jumpOrLoop { opcode := 0xE1#8, rel8 := rel8, start := s.off, len := 2 }) }) ∧
  RuleHolds [0xE2#8, rel8] [1, 1] (.loop rel8)
    (fun s => { s with
      off := s.off + 2
      text := s.text ++ (s.params.loopNames[2] ++ " $+2" ++ (if 0 ≤ rel8.toInt then "+" else "-") ++
        decNat rel8.toInt.natAbs) ++ "\n"
      count := s.count + 1
      last := some (.jumpOrLoop { opcode := 0xE2#8, rel8 := rel8, start := s.off, len := 2 }) }) ∧
  RuleHolds [0xE3#8, rel8] [1, 1] (.jcxz rel8)
    (fun s => { s with
      off := s.off + 2
      text := s.text ++ (s.params.loopNames[3] ++ " $+2" ++ (if 0 ≤ rel8.toInt then "+" else "-") ++
        decNat rel8.toInt.natAbs) ++ "\n"
      count := s.count + 1
      last := some (.jumpOrLoop { opcode := 0xE3#8, rel8 := rel8, start := s.off, len := 2 }) }) ∧
  defaultLoopNames.toList = ["loopnz", "loopz", "loop", "jcxz"]

/-- R70: the `reg` field of C6-C7 and the `s` bit with w = 0 are never checked and change no text and no
length. -/
def Obligations.UncheckedFieldsChangeNoText : Prop :=
  (∀ (w : Bit) (reg reg' : RegCode) (x : RmField) (imm : Word) (s : State), ∃ t t',
    exec (.movRmImm w reg x imm) s = .next t ∧ exec (.movRmImm w reg' x imm) s = .next t' ∧
      t.text = t'.text ∧ t.off = t'.off ∧ t.count = t'.count) ∧
  ∀ (x : RmField) (imm : Word) (s : State),
    (∃ t t', exec (.addRmImm 0#1 0#1 x imm) s = .next t ∧ exec (.addRmImm 1#1 0#1 x imm) s = .next t' ∧
      t.text = t'.text ∧ t.off = t'.off ∧ t.count = t'.count) ∧
    (∃ t t', exec (.subRmImm 0#1 0#1 x imm) s = .next t ∧ exec (.subRmImm 1#1 0#1 x imm) s = .next t' ∧
      t.text = t'.text ∧ t.off = t'.off ∧ t.count = t'.count) ∧
    (∃ t t', exec (.cmpRmImm 0#1 0#1 x imm) s = .next t ∧ exec (.cmpRmImm 1#1 0#1 x imm) s = .next t' ∧
      t.text = t'.text ∧ t.off = t'.off ∧ t.count = t'.count)

/-! ### The step -/

/-- Where the bytes at the offset are the encoding of a well-formed instruction, the step is its meaning;
and whenever the decoder answers an instruction, the step is its meaning, which leaves the offset where
the decoder's reads ended. -/
def Obligations.StepRunsDecodedInstruction : Prop :=
  (∀ (s : State) (i : Instr), i.wf = true → AtBytes s (encode i) → step s = exec i s) ∧
  ∀ (s : State) (i : Instr) (c : Cursor), s.phase = .run → s.off ≠ s.len →
    decodeInstr s.cursor = .ok (i, c) → step s = exec i s ∧ ∃ t, exec i s = .next t ∧ t.off = c.off

/-- From R139: what a step writes. It is enabled in RUN alone. At the end of the stream it writes `phase` alone
(the spec's decision D21); otherwise one instruction is decoded and `off`, `text`, `count` and `last` are
written, or an error is raised, and `phase` and `err` are. That the step is the decoded instruction's meaning is
`StepRunsDecodedInstruction`, and that the line is the rendering of the record `LineIsRenderingOfRecord`. -/
def Obligations.StepFollowsDriverLoop : Prop :=
  (∀ s t : State, step s = .next t → s.phase = .run) ∧
  ∀ s : State, s.phase = .run →
    (s.off = s.len → step s = .next { s with phase := .done }) ∧
    (s.off ≠ s.len →
      (∃ i c r line, decodeInstr s.cursor = .ok (i, c) ∧ r.start = s.off ∧ c.off = s.off + r.len ∧
        step s = .next { s with
          off := s.off + r.len, text := s.text ++ line ++ "\n", count := s.count + 1, last := some r }) ∨
      ∃ e, decodeInstr s.cursor = .error e ∧ step s = .next { s with phase := .error, err := some e })

/-- R155 (the spec's decision D26): no step is enabled in DONE and ERROR, which the model says with the fault
`noStepEnabled` (log entry 8); a `load`, which is no step (log entry 22), leaves them, for offset 0 of the new
buffer, and what it leaves is the same whatever the old run held. -/
def Obligations.TerminalPhasesLeftByLoadAlone : Prop :=
  ∀ s : State, s.phase = .done ∨ s.phase = .error →
    step s = .fault .noStepEnabled ∧
    ∀ bytes : List Byte, lenAllowed s.params bytes.length = true →
      ∃ t, load bytes s = .next t ∧ t.phase = .run ∧ t.off = 0 ∧ t.err = none ∧
        t.buf.slice 0 t.len = bytes ∧ ∀ s' : State, s'.params = s.params → load bytes s' = .next t

/-- R160, which the spec marks as derived: a step is enabled, and answers a state, in exactly the RUN
states: the block is never stuck. -/
def Obligations.StepAnswersExactlyInRun : Prop :=
  ∀ s : State, s.phase = .run ↔ ∃ t, step s = .next t

/-- R154: a step that ends in ERROR writes `phase` and `err` and nothing else. (That `text` keeps its value
is R154's sentence; R142 keeps it out of the result.) -/
def Obligations.ErrorEntryWritesPhaseAndErrAlone : Prop :=
  ∀ s t : State, step s = .next t → t.phase = .error →
    ∃ e, t = { s with phase := .error, err := some e }

/-- R148 to R151: the payload of a raised error, from a state whose offset lies in the buffer;
InvalidAddressingMode is never raised. -/
def Obligations.RaisedErrorPayloads : Prop :=
  ∀ s t : State, s.off ≤ s.len → step s = .next t → t.phase = .error →
    ∃ e, t.err = some e ∧ errMatches s e

/-- R148: in RUN with a byte left, the step raises UnsupportedOpcode, with the offset and the byte, exactly
when the byte is none of the 70 of R52. -/
def Obligations.IllegalByteRaisesUnsupportedOpcode : Prop :=
  ∀ s : State, s.phase = .run → s.off < s.len →
    (¬ acceptedByte (s.buf.read s.off) ↔ step s = .next { s with
      phase := .error, err := some (.unsupportedOpcode s.off (s.buf.read s.off)) })

/-- R150, R69: the 80-83 group with a `reg` outside 000, 101 and 111 raises InvalidOperation once the
mod-reg-rm byte and the displacement are there, whether or not the immediate is; and nothing else raises
it. The payload is the spec's decision D4. -/
def Obligations.GroupWithoutOperationRaisesInvalidOperation : Prop :=
  (∀ (s : State) (sx w : Bit) (reg : RegCode) (x : RmField), x.wf = true →
    reg ≠ 0b000#3 → reg ≠ 0b101#3 → reg ≠ 0b111#3 →
    AtBytes s ([0b100000#6 ++ sx ++ w, modRegRm x.mod reg x.rm] ++ dispBytes x) →
    step s = .next { s with
      phase := .error, err := some (.invalidOperation s.off (0b100000#6 ++ sx ++ w) reg) }) ∧
  ∀ (s t : State) (io : Nat) (op : Byte) (reg : RegCode), s.off ≤ s.len → step s = .next t →
    t.phase = .error → t.err = some (.invalidOperation io op reg) →
    io = s.off ∧ op = s.buf.read s.off ∧ 0x80 ≤ op.toNat ∧ op.toNat ≤ 0x83 ∧
      (reg = 0b001#3 ∨ reg = 0b010#3 ∨ reg = 0b011#3 ∨ reg = 0b100#3 ∨ reg = 0b110#3)

/-- R153: at most one error, the first failing check in stream order: the opcode byte, the mod-reg-rm byte,
the displacement, the operation of the 80-83 group, then the immediate, address or offset; with none of
these the step succeeds. `h` is the number of bytes before that last read. The order of the operation check
is the spec's decision D7, the payload fields its decision D4. -/
def Obligations.FirstFailingCheckIsReported : Prop :=
  ∀ s : State, s.phase = .run → s.off < s.len →
    let b := s.buf.read s.off
    let m := s.buf.read (s.off + 1)
    let d := dispLen (modOf m) (rmOf m)
    let h := if hasModRegRm b then 2 + d else 1
    let badOp := 0x80 ≤ b.toNat ∧ b.toNat ≤ 0x83 ∧ regOf m ≠ 0b000#3 ∧ regOf m ≠ 0b101#3 ∧ regOf m ≠ 0b111#3
    (¬ acceptedByte b → Raises s (.unsupportedOpcode s.off b)) ∧
    (acceptedByte b →
      (hasModRegRm b = true → s.len < s.off + 2 →
        Raises s (.underrun s.off (s.off + 1) 1 (s.len - (s.off + 1)))) ∧
      (hasModRegRm b = true → s.off + 2 ≤ s.len → s.len < s.off + 2 + d →
        Raises s (.underrun s.off (s.off + 2) d (s.len - (s.off + 2)))) ∧
      (s.off + h ≤ s.len → badOp → Raises s (.invalidOperation s.off b (regOf m))) ∧
      (s.off + h ≤ s.len → ¬ badOp → s.len < s.off + h + tailLen b →
        Raises s (.underrun s.off (s.off + h) (tailLen b) (s.len - (s.off + h)))) ∧
      (s.off + h + tailLen b ≤ s.len → ¬ badOp →
        ∃ t, step s = .next t ∧ t.phase = .run ∧ t.err = s.err ∧ t.off = s.off + h + tailLen b))

/-- R149: a buffer that ends inside an instruction raises the Underrun of the read that fails, for every
instruction. The payload is the spec's decision D4. -/
def Obligations.TruncatedInstructionRaisesUnderrun : Prop :=
  ∀ (s : State) (i : Instr), i.wf = true → CutShort s (encode i) →
    ∃ e, IsUnderrun s (readsOf i) e ∧ step s = .next { s with phase := .error, err := some e }

/-- R16, R165 (the spec's decision D23): no step writes the buffer or its length; R15: `off` never decreases. R14 fixes the parameters per
instance; that they are a field of State, which no step writes, is log entry 1. -/
def Obligations.StepKeepsBufferAndParameters : Prop :=
  ∀ s t : State, step s = .next t →
    t.buf = s.buf ∧ t.len = s.len ∧ t.params = s.params ∧ s.off ≤ t.off ∧
      (∀ a, t.buf.read a = s.buf.read a)

/-- The frame of every instruction: its meaning answers a state in every state, and that state differs in
`off`, `text`, `count` and `last` alone; every byte of the buffer reads as before. -/
def Obligations.MeaningFrame : Prop :=
  ∀ (i : Instr) (s : State), ∃ t, exec i s = .next t ∧
    t.params = s.params ∧ t.buf = s.buf ∧ (∀ a, t.buf.read a = s.buf.read a) ∧ t.len = s.len ∧
    t.phase = s.phase ∧ t.err = s.err ∧ t.count = s.count + 1 ∧ t.off = s.off + (encode i).length

/-- R146, partly marked as derived: the line a meaning appends is the rendering of the record it leaves, which reads the record and
the parameters alone. -/
def Obligations.LineIsRenderingOfRecord : Prop :=
  ∀ (i : Instr) (s : State), ∃ t r line, exec i s = .next t ∧ t.last = some r ∧
    render s.params r = some line ∧ t.text = s.text ++ line ++ "\n"

/-- R19, R74, R75, R141: with mnemonic tables that keep to R75, the line appended is non-empty printable
ASCII, has no line break and no space at either end, and begins with a lower-case letter. -/
def Obligations.LineShape : Prop :=
  ∀ (i : Instr) (s : State), paramsOk s.params = true →
    ∃ t line, exec i s = .next t ∧ t.text = s.text ++ line ++ "\n" ∧ lineOk line = true ∧
      ∃ c, line.toList.head? = some c ∧ 'a' ≤ c ∧ c ≤ 'z'

/-- R23, R26: a step reads the parameters, the buffer, its length, the offset and the phase alone. Two
states that agree on these, whatever they hold in `text`, `count`, `last` and `err`, take the same step:
the same new offset, phase, record and error, and the same text appended. -/
def Obligations.StepIgnoresEarlierOutput : Prop :=
  ∀ s s' t : State, s.params = s'.params → s.buf = s'.buf → s.len = s'.len → s.off = s'.off →
    s.phase = s'.phase → step s = .next t →
    ∃ t' added n, step s' = .next t' ∧ t'.off = t.off ∧ t'.phase = t.phase ∧
      t.text = s.text ++ added ∧ t'.text = s'.text ++ added ∧
      t.count = s.count + n ∧ t'.count = s'.count + n ∧
      (t.phase = .run → t'.last = t.last) ∧ (t.phase = .error → t'.err = t.err)

/-- A successful step depends on the bytes of its own instruction alone: another buffer, of another
length, with the same bytes there gives the same record, offset and line. -/
def Obligations.StepDependsOnItsOwnBytes : Prop :=
  ∀ s s' t : State, s.params = s'.params → s.off = s'.off → s'.phase = .run →
    step s = .next t → t.phase = .run → t.off ≤ s'.len →
    (∀ a, s.off ≤ a → a < t.off → s'.buf.read a = s.buf.read a) →
    ∃ t' added, step s' = .next t' ∧ t'.phase = .run ∧ t'.off = t.off ∧ t'.last = t.last ∧
      t.text = s.text ++ added ∧ t'.text = s'.text ++ added

/-! ### Reset, load and the result -/

/-- R161, R140, R117, R134, R9, R10: the state after reset, with the empty buffer (log entry 5) and the
default parameters. -/
def Obligations.ResetState : Prop :=
  State.reset.off = 0 ∧ State.reset.phase = .run ∧ State.reset.text = "bits 16\n" ∧
  State.reset.count = 0 ∧ State.reset.last = none ∧ State.reset.err = none ∧
  State.reset.len = 0 ∧ (∀ a, State.reset.buf.read a = Memory.unlisted) ∧
  State.reset.params.imm8sText = .signed ∧ State.reset.params.sregText = .general ∧
  State.reset.params.jccNames.toList = ["jo", "jno", "jb", "jnb", "jz", "jnz", "jbe", "ja",
    "js", "jns", "jp", "jnp", "jl", "jnl", "jle", "jg"] ∧
  State.reset.params.loopNames.toList = ["loopnz", "loopz", "loop", "jcxz"]

/-- R161: `load`, in any state and phase, with a buffer within `P_MAX_LEN`, sets every field; the latched
buffer reads as the bytes given. The parameters stay those of the instance (log entry 1). -/
def Obligations.LoadSetsEveryField : Prop :=
  ∀ (s : State) (bytes : List Byte), lenAllowed s.params bytes.length = true →
    ∃ t, load bytes s = .next t ∧ t.params = s.params ∧ t.buf.wf = true ∧
      (∀ (a : Nat) (v : Byte), bytes[a]? = some v → t.buf.read a = v) ∧ t.buf.slice 0 bytes.length = bytes ∧
      t.len = bytes.length ∧ t.off = 0 ∧ t.phase = .run ∧ t.text = "bits 16\n" ∧ t.count = 0 ∧
      t.last = none ∧ t.err = none

/-- A buffer longer than `P_MAX_LEN` is outside the model: `load` refuses it, and it alone (I20 of
93_implementation_defined.md; log entry 12). An instance with an unbounded `P_MAX_LEN`, the default (R8), accepts
every buffer. -/
def Obligations.LoadRefusesTooLongBuffer : Prop :=
  ∀ (s : State) (bytes : List Byte),
    (∀ m : Nat, s.params.maxLen = some m →
      (load bytes s = .refused .bufferTooLong ↔ m < bytes.length) ∧
      (bytes.length ≤ m → ∃ t, load bytes s = .next t)) ∧
    (s.params.maxLen = none → ∃ t, load bytes s = .next t)

/-- R142 (the spec's decision D5): the result is undefined in RUN; it is the text after DONE and the error alone after ERROR. -/
def Obligations.ResultOfRun : Prop :=
  ∀ s : State, Inv s →
    (s.phase = .run ↔ result s = none) ∧
    (s.phase = .done → result s = some (.ok s.text)) ∧
    (s.phase = .error → ∃ e, s.err = some e ∧ result s = some (.error e))

/-- The status codes of R147 (the spec's decision D3); with the invariant, the code of `err` is 0 exactly outside ERROR. -/
def Obligations.StatusCodes : Prop :=
  (phaseCode .run = 0 ∧ phaseCode .done = 1 ∧ phaseCode .error = 2 ∧ errCode none = 0) ∧
  (∀ io ro n av, errCode (some (.underrun io ro n av)) = 1) ∧
  (∀ o b, errCode (some (.unsupportedOpcode o b)) = 2) ∧
  (∀ io op g, errCode (some (.invalidOperation io op g)) = 3) ∧
  (∀ io, errCode (some (.invalidAddressingMode io)) = 4) ∧
  ∀ s : State, Inv s → (errCode s.err = 0 ↔ s.phase ≠ .error) ∧ errCode s.err ≤ 3

/-! ### Invariants and whole runs -/

/-- The invariant holds at reset. -/
def Obligations.InvariantAtReset : Prop := Inv State.reset

/-- A `load` of any bytes, in any state whose mnemonic tables keep to R75, leaves a state with the
invariant. -/
def Obligations.InvariantAfterLoad : Prop :=
  ∀ (s t : State) (bytes : List Byte), paramsOk s.params = true → load bytes s = .next t → Inv t

/-- Every step keeps the invariant: the offset inside the buffer (R15), the canonical buffer, `err` exactly
in ERROR with a payload that fits (R21, R148 to R151), `count` lines after the header (R22), the last line
being the rendering of the last record (R146). -/
def Obligations.InvariantKeptByStep : Prop :=
  ∀ s t : State, Inv s → step s = .next t → Inv t

/-- R144, which the spec marks as derived: from any RUN state with its offset in the buffer, at most half the remaining bytes of successful
steps, and one more step, reach DONE or ERROR. -/
def Obligations.EveryRunTerminates : Prop :=
  ∀ s : State, s.phase = .run → s.off ≤ s.len →
    ∃ k u t, 2 * k ≤ s.len - s.off ∧ Sys2Proof.core.run k s = .next u ∧ u.phase = .run ∧
      u.count = s.count + k ∧ step u = .next t ∧ (t.phase = .done ∨ t.phase = .error)

/-- R145: a buffer of exactly N concatenated encodings, whatever they are, ends in DONE after N
instructions and one more step, with no byte left over, and its text is the header and N lines, the k-th of
them the line of the k-th instruction. -/
def Obligations.ExactConsumption : Prop :=
  ∀ (s s0 : State) (is : List Instr), (∀ i ∈ is, i.wf = true) → load (is.flatMap encode) s = .next s0 →
    ∃ (t : State) (lines : List String), Sys2Proof.core.run (is.length + 1) s0 = .next t ∧ t.phase = .done ∧ t.off = t.len ∧
      t.count = is.length ∧ t.err = none ∧ lines.length = is.length ∧
      t.text = "bits 16\n" ++ String.join (lines.map (· ++ "\n")) ∧
      ∀ (k : Nat) (i : Instr), is[k]? = some i → ∃ line, lines[k]? = some line ∧
        ∀ u : State, u.params = s.params → ∃ u', exec i u = .next u' ∧ u'.text = u.text ++ line ++ "\n"
end

