-- ==== Sys2Proof/Laws/Bits.lean ====
section
/-! SUPPORT. The bit fields: taking apart what was put together, putting together what was taken apart,
and the fields of the opcode bytes. -/

namespace Sys2Proof.Machine

/-- R30: a two-byte value is `lo + 256 * hi`. -/
theorem le16_toNat (lo hi : Byte) : (le16 lo hi).toNat = lo.toNat + 256 * hi.toNat := by
  have h : (le16 lo hi).toNat = hi.toNat <<< 8 ||| lo.toNat := BitVec.toNat_append hi lo
  rw [h, ← Nat.shiftLeft_add_eq_or_of_lt (b := lo.toNat) lo.isLt, Nat.shiftLeft_eq]
  omega

theorem loByte_toNat (v : Word) : (loByte v).toNat = v.toNat % 256 := by
  simp [loByte, BitVec.extractLsb'_toNat]

theorem hiByte_toNat (v : Word) : (hiByte v).toNat = v.toNat / 256 := by
  have := v.isLt
  simp [hiByte, BitVec.extractLsb'_toNat, Nat.shiftRight_eq_div_pow]
  omega

@[simp] theorem le16_lo_hi (v : Word) : le16 (loByte v) (hiByte v) = v := by
  apply BitVec.eq_of_toNat_eq
  rw [le16_toNat, loByte_toNat, hiByte_toNat]
  omega

@[simp] theorem loByte_le16 (lo hi : Byte) : loByte (le16 lo hi) = lo := by
  apply BitVec.eq_of_toNat_eq
  rw [loByte_toNat, le16_toNat]
  omega

@[simp] theorem hiByte_le16 (lo hi : Byte) : hiByte (le16 lo hi) = hi := by
  apply BitVec.eq_of_toNat_eq
  have := lo.isLt
  rw [hiByte_toNat, le16_toNat]
  omega

@[simp] theorem loByte_sext16 (v : Byte) : loByte (sext16 v) = v := by revert v; decide

@[simp] theorem loByte_zext16 (v : Byte) : loByte (zext16 v) = v := by revert v; decide

theorem zext16_toNat (v : Byte) : (zext16 v).toNat = v.toNat := by
  have := v.isLt
  simp [zext16]
  omega

theorem zext16_loByte {v : Word} (h : v.toNat < 256) : zext16 (loByte v) = v := by
  apply BitVec.eq_of_toNat_eq
  rw [zext16_toNat, loByte_toNat]
  omega

@[simp] theorem modOf_modRegRm (m : ModCode) (g x : RegCode) : modOf (modRegRm m g x) = m := by
  revert m g x; decide

@[simp] theorem regOf_modRegRm (m : ModCode) (g x : RegCode) : regOf (modRegRm m g x) = g := by
  revert m g x; decide

@[simp] theorem rmOf_modRegRm (m : ModCode) (g x : RegCode) : rmOf (modRegRm m g x) = x := by
  revert m g x; decide

@[simp] theorem modRegRm_of (m : Byte) : modRegRm (modOf m) (regOf m) (rmOf m) = m := by
  revert m; decide

/-- R62: the displacement has 0, 1 or 2 bytes. -/
theorem dispLen_le (m : ModCode) (x : RegCode) : dispLen m x ≤ 2 := by revert m x; decide

theorem dispLen_eq_one (m : ModCode) (x : RegCode) : dispLen m x = 1 ↔ m = 0b01#2 := by
  revert m x; decide

theorem immLen_le (wide : Bool) : 1 ≤ immLen wide ∧ immLen wide ≤ 2 := by revert wide; decide

/-- The fields `d` (or `s`) and `w` of an opcode byte with a six-bit pattern (R47). -/
theorem bitAt_pattern6 (p : BitVec 6) (d w : Bit) : bitAt (p ++ d ++ w) 1 = d ∧ bitAt (p ++ d ++ w) 0 = w := by
  revert p d w; decide

/-- The field `w` of an opcode byte with a seven-bit pattern (R47). -/
theorem bitAt_pattern7 (p : BitVec 7) (w : Bit) : bitAt (p ++ w) 0 = w := by revert p w; decide

/-- The fields `w` and `reg` of an opcode byte with a four-bit pattern (R47). -/
theorem bitAt_pattern4 (p : BitVec 4) (w : Bit) (g : RegCode) :
    bitAt (p ++ w ++ g) 3 = w ∧ (p ++ w ++ g).extractLsb' 0 3 = g := by
  revert p w g; decide

/-- An opcode byte is its pattern and its fields, for each length of the pattern. -/
theorem pattern6_of (b : Byte) : b.extractLsb' 2 6 ++ bitAt b 1 ++ bitAt b 0 = b := by revert b; decide

theorem pattern7_of (b : Byte) : b.extractLsb' 1 7 ++ bitAt b 0 = b := by revert b; decide

theorem pattern4_of (b : Byte) : b.extractLsb' 4 4 ++ bitAt b 3 ++ b.extractLsb' 0 3 = b := by
  revert b; decide

end Sys2Proof.Machine
end

