-- ==== Sys2Proof/Laws/Memory.lean ====
section
/-! SUPPORT. The buffer's cells: reading after writing, the canonical form, and the latched buffer. -/

namespace Sys2Proof.Machine

variable {m : Memory} {a b n lo : Nat} {v : Byte}

theorem Memory.wfFrom_mono {lo lo' : Nat} (h : Memory.wfFrom lo m = true) (hle : lo' ≤ lo) :
    Memory.wfFrom lo' m = true := by
  cases m with
  | nil => rfl
  | cons c m =>
    obtain ⟨x, u⟩ := c
    simp only [Memory.wfFrom, Bool.and_eq_true, decide_eq_true_eq] at h ⊢
    exact ⟨⟨by omega, h.1.2⟩, h.2⟩

/-- Below the bound of its form, a memory lists nothing. -/
theorem Memory.read_of_lt_wfFrom (h : Memory.wfFrom lo m = true) (ha : a < lo) :
    m.read a = Memory.unlisted := by
  induction m generalizing lo with
  | nil => rfl
  | cons c m ih =>
    obtain ⟨x, u⟩ := c
    simp only [Memory.wfFrom, Bool.and_eq_true, decide_eq_true_eq] at h
    have hne : a ≠ x := by omega
    simp only [Memory.read, hne, if_false]
    exact ih h.2 (by omega)

theorem Memory.write_wfFrom (h : Memory.wfFrom lo m = true) (ha : lo ≤ a) :
    Memory.wfFrom lo (m.write a v) = true := by
  induction m generalizing lo with
  | nil => by_cases hv : v = Memory.unlisted <;> simp [Memory.write, Memory.wfFrom, hv, ha]
  | cons c m ih =>
    obtain ⟨x, u⟩ := c
    have h' := h
    simp only [Memory.wfFrom, Bool.and_eq_true, decide_eq_true_eq] at h
    obtain ⟨⟨hlo, hu⟩, ht⟩ := h
    unfold Memory.write
    by_cases hax : a < x
    · by_cases hv : v = Memory.unlisted
      · simpa [hax, hv] using h'
      · simp only [hax, hv, if_true, if_false, Memory.wfFrom, Bool.and_eq_true, decide_eq_true_eq]
        exact ⟨⟨ha, by simpa using hv⟩, ⟨by omega, hu⟩, ht⟩
    · by_cases hae : a = x
      · subst hae
        by_cases hv : v = Memory.unlisted
        · simpa [hv] using Memory.wfFrom_mono ht (by omega)
        · simp only [lt_irrefl, if_false, if_true, hv, Memory.wfFrom, Bool.and_eq_true, decide_eq_true_eq]
          exact ⟨⟨hlo, by simpa using hv⟩, ht⟩
      · simp only [hax, hae, if_false, Memory.wfFrom, Bool.and_eq_true, decide_eq_true_eq]
        exact ⟨⟨hlo, hu⟩, ih ht (by omega)⟩

/-- A write keeps the canonical form. -/
theorem Memory.write_wf (h : m.wf = true) : (m.write a v).wf = true :=
  Memory.write_wfFrom h (Nat.zero_le _)

/-- Storing bytes keeps the canonical form. -/
theorem Memory.writeBytes_wf (bs : List Byte) (h : m.wf = true) : (m.writeBytes a bs).wf = true := by
  induction bs generalizing m a with
  | nil => exact h
  | cons v vs ih => exact ih (Memory.write_wf h)

/-- The latched buffer is in canonical form. -/
theorem Memory.ofBytes_wf (bs : List Byte) : (Memory.ofBytes bs).wf = true :=
  Memory.writeBytes_wf bs rfl

theorem Memory.reset_wf : State.reset.buf.wf = true := rfl

theorem Memory.read_write_from (h : Memory.wfFrom lo m = true) :
    (m.write a v).read b = if b = a then v else m.read b := by
  induction m generalizing lo with
  | nil =>
    by_cases hv : v = Memory.unlisted <;> by_cases hb : b = a <;> simp [Memory.write, Memory.read, hv, hb]
  | cons c m ih =>
    obtain ⟨x, u⟩ := c
    have h' := h
    simp only [Memory.wfFrom, Bool.and_eq_true, decide_eq_true_eq] at h
    obtain ⟨⟨hlo, hu⟩, ht⟩ := h
    unfold Memory.write
    by_cases hax : a < x
    · by_cases hv : v = Memory.unlisted
      · by_cases hb : b = a
        · subst hb
          have hne : b ≠ x := by omega
          simp [hax, hv, Memory.read, hne, Memory.read_of_lt_wfFrom ht (show b < x + 1 by omega)]
        · simp [hax, hv, hb]
      · by_cases hb : b = a <;> simp [hax, hv, Memory.read, hb]
    · by_cases hae : a = x
      · subst hae
        by_cases hv : v = Memory.unlisted
        · by_cases hb : b = a
          · subst hb
            simp [hv, Memory.read_of_lt_wfFrom ht (Nat.lt_succ_self b)]
          · simp [hv, hb, Memory.read]
        · by_cases hb : b = a <;> simp [hv, Memory.read, hb]
      · simp only [hax, hae, if_false, Memory.read, ih ht]
        by_cases hb : b = a
        · subst hb; simp [hae]
        · simp [hb]

/-- Reading after a write: the written byte at its address, the old byte elsewhere. -/
theorem Memory.read_write (h : m.wf = true) :
    (m.write a v).read b = if b = a then v else m.read b := Memory.read_write_from h

/-- Reading after storing consecutive bytes. -/
theorem Memory.read_writeBytes (bs : List Byte) (h : m.wf = true) :
    (m.writeBytes a bs).read b = if a ≤ b then bs[b - a]?.getD (m.read b) else m.read b := by
  induction bs generalizing m a with
  | nil => by_cases hab : a ≤ b <;> simp [Memory.writeBytes, hab]
  | cons v vs ih =>
    rw [Memory.writeBytes, ih (Memory.write_wf h), Memory.read_write h]
    by_cases hab : a ≤ b
    · by_cases hba : b = a
      · subst hba; simp
      · have h1 : a + 1 ≤ b := by omega
        obtain ⟨k, rfl⟩ := Nat.exists_eq_add_of_le h1
        have h2 : a + 1 + k - a = k + 1 := by omega
        have h3 : a + 1 + k - (a + 1) = k := by omega
        simp [hab, h1, h2, h3, hba]
    · have h1 : ¬ a + 1 ≤ b := by omega
      have h2 : b ≠ a := by omega
      simp [hab, h1, h2]

/-- The latched buffer reads as the bytes given. -/
theorem Memory.read_ofBytes (bs : List Byte) : (Memory.ofBytes bs).read a = bs[a]?.getD Memory.unlisted := by
  have h := Memory.read_writeBytes (m := []) (a := 0) (b := a) bs rfl
  simpa [Memory.ofBytes, Memory.read] using h

theorem Memory.write_below (h : m.below n = true) (ha : a < n) : (m.write a v).below n = true := by
  induction m with
  | nil => by_cases hv : v = Memory.unlisted <;> simp [Memory.write, Memory.below, hv, ha]
  | cons c m ih =>
    obtain ⟨x, u⟩ := c
    have hx : x < n ∧ Memory.below n m = true := by simpa [Memory.below] using h
    have ih' := ih hx.2
    have cons_below : ∀ (y : Nat) (w : Byte) (m' : Memory), y < n → m'.below n = true →
        Memory.below n ((y, w) :: m') = true := by
      intro y w m' hy hm
      simpa [Memory.below, hy] using hm
    unfold Memory.write
    split_ifs
    · exact h
    · exact cons_below a v _ ha h
    · exact hx.2
    · exact cons_below a v m ha hx.2
    · exact cons_below x u _ hx.1 ih'

theorem Memory.writeBytes_below (bs : List Byte) (h : m.below n = true) (ha : a + bs.length ≤ n) :
    (m.writeBytes a bs).below n = true := by
  induction bs generalizing m a with
  | nil => exact h
  | cons v vs ih =>
    simp only [List.length_cons] at ha
    exact ih (Memory.write_below h (by omega)) (by omega)

/-- The latched buffer lists nothing at or past its length. -/
theorem Memory.ofBytes_below (bs : List Byte) : (Memory.ofBytes bs).below bs.length = true :=
  Memory.writeBytes_below bs rfl (by simp)

@[simp] theorem Memory.slice_zero : m.slice a 0 = [] := rfl

@[simp] theorem Memory.slice_succ : m.slice a (n + 1) = m.read a :: m.slice (a + 1) n := rfl

@[simp] theorem Memory.length_slice : (m.slice a n).length = n := by
  induction n generalizing a with
  | zero => rfl
  | succ n ih => simp [ih]

theorem Memory.getElem?_slice {k : Nat} (hk : k < n) : (m.slice a n)[k]? = some (m.read (a + k)) := by
  induction n generalizing a k with
  | zero => omega
  | succ n ih =>
    cases k with
    | zero => simp
    | succ k => simp [ih (show k < n by omega), Nat.add_assoc, Nat.add_comm 1 k]

theorem Memory.slice_append {n' : Nat} : m.slice a (n + n') = m.slice a n ++ m.slice (a + n) n' := by
  induction n generalizing a with
  | zero => simp
  | succ n ih =>
    rw [show n + 1 + n' = (n + n') + 1 by omega, Memory.slice_succ, ih, Memory.slice_succ,
      show a + 1 + n = a + (n + 1) by omega]
    rfl

end Sys2Proof.Machine
end

