-- ==== Sys2Proof/Laws/Cursor.lean ====
section
/-! SUPPORT. What each read primitive answers: at a cursor that holds given bytes, and, the other way,
what a read that answered says of the buffer. -/

namespace Sys2Proof.Machine

variable {c c' : Cursor} {b lo hi : Byte} {v : Word} {bs cs : List Byte} {n : Nat} {e : Err}

/-- The cursor has `bs` before it, all inside the buffer. -/
def Cursor.Holds (c : Cursor) (bs : List Byte) : Prop :=
  c.off + bs.length ≤ c.len ∧ c.buf.slice c.off bs.length = bs

@[simp] theorem Cursor.advance_buf : (c.advance n).buf = c.buf := rfl
@[simp] theorem Cursor.advance_len : (c.advance n).len = c.len := rfl
@[simp] theorem Cursor.advance_start : (c.advance n).start = c.start := rfl
@[simp] theorem Cursor.advance_off : (c.advance n).off = c.off + n := rfl
@[simp] theorem Cursor.advance_zero : c.advance 0 = c := rfl
@[simp] theorem Cursor.advance_advance {k : Nat} : (c.advance n).advance k = c.advance (n + k) := by
  simp [Cursor.advance, Nat.add_assoc]

@[simp] theorem Except.ok_bind_ok {α β : Type} (a : α) (f : α → Except Err β) :
    (Except.ok a >>= f) = f a := rfl
@[simp] theorem Except.error_bind_error {α β : Type} (f : α → Except Err β) :
    ((Except.error e : Except Err α) >>= f) = Except.error e := rfl

/-- A bind that answers: the first part answered, and the second part answered on it. -/
theorem Except.bind_eq_ok {α β : Type} {x : Except Err α} {f : α → Except Err β} {y : β} :
    (x >>= f) = Except.ok y ↔ ∃ a, x = Except.ok a ∧ f a = Except.ok y := by
  cases x <;> simp

/-- A bind that raises: the first part raised, or the second did on its answer. -/
theorem Except.bind_eq_error {α β : Type} {x : Except Err α} {f : α → Except Err β} :
    (x >>= f) = Except.error e ↔ x = Except.error e ∨ ∃ a, x = Except.ok a ∧ f a = Except.error e := by
  cases x <;> simp

theorem Cursor.holds_nil : c.Holds [] ↔ c.off ≤ c.len := by simp [Cursor.Holds]

theorem Cursor.holds_cons :
    c.Holds (b :: bs) ↔ c.off < c.len ∧ c.buf.read c.off = b ∧ (c.advance 1).Holds bs := by
  simp only [Cursor.Holds, List.length_cons, Memory.slice_succ, List.cons.injEq, Cursor.advance_off,
    Cursor.advance_len, Cursor.advance_buf]
  constructor
  · rintro ⟨h1, h2, h3⟩; exact ⟨by omega, h2, by omega, h3⟩
  · rintro ⟨_, h2, h1, h3⟩; exact ⟨by omega, h2, h3⟩

theorem Cursor.holds_append :
    c.Holds (bs ++ cs) ↔ c.Holds bs ∧ (c.advance bs.length).Holds cs := by
  induction bs generalizing c with
  | nil =>
    simp only [List.nil_append, Cursor.holds_nil, List.length_nil, Cursor.advance_zero]
    exact ⟨fun h => ⟨by have := h.1; omega, h⟩, fun h => h.2⟩
  | cons b bs ih =>
    simp only [List.cons_append, Cursor.holds_cons, ih, Cursor.advance_advance, List.length_cons,
      Nat.add_comm 1]
    tauto

/-- R32: `readU8` answers the next byte and moves past it. -/
theorem Cursor.readU8_holds (h : c.Holds (b :: bs)) : c.readU8 = .ok (b, c.advance 1) := by
  obtain ⟨h1, h2, -⟩ := Cursor.holds_cons.1 h
  simp [Cursor.readU8, Cursor.memRead8, show ¬ c.off + 1 > c.len by omega, h2]

/-- R33: `readI8` reads as `readU8` does. -/
theorem Cursor.readI8_eq : c.readI8 = c.readU8 := rfl

/-- R34: `readU16` answers the next two bytes, low byte first, and moves past them. -/
theorem Cursor.readU16_holds (h : c.Holds (lo :: hi :: bs)) :
    c.readU16 = .ok (le16 lo hi, c.advance 2) := by
  obtain ⟨h1, h2, h3⟩ := Cursor.holds_cons.1 h
  obtain ⟨h4, h5, -⟩ := Cursor.holds_cons.1 h3
  simp only [Cursor.advance_off, Cursor.advance_len, Cursor.advance_buf] at h4 h5
  simp [Cursor.readU16, Cursor.memRead16, show ¬ c.off + 2 > c.len by omega, h2, h5]

/-- R35: an immediate that fits its bytes is read back. -/
theorem Cursor.readU16OrU8_holds {wide : Bool} (hf : immFits wide v = true)
    (h : c.Holds (immBytes wide v ++ bs)) :
    c.readU16OrU8 wide = .ok (v, c.advance (immLen wide)) := by
  cases wide with
  | true =>
    have h16 := Cursor.readU16_holds (c := c) (lo := loByte v) (hi := hiByte v) (bs := bs)
      (by simpa [immBytes] using h)
    simpa [Cursor.readU16OrU8, immLen] using h16
  | false =>
    have h8 := Cursor.readU8_holds (c := c) (b := loByte v) (bs := bs) (by simpa [immBytes] using h)
    have hv : v.toNat < 256 := by simpa [immFits] using hf
    simp [Cursor.readU16OrU8, immLen, h8, zext16_loByte hv]

theorem Cursor.readU8_eq_ok :
    c.readU8 = .ok (b, c') ↔ c.off < c.len ∧ b = c.buf.read c.off ∧ c' = c.advance 1 := by
  unfold Cursor.readU8 Cursor.memRead8
  split
  · rename_i h; simp; omega
  · rename_i h
    simp only [Except.ok_bind_ok, Except.ok.injEq, Prod.mk.injEq]
    constructor
    · rintro ⟨rfl, rfl⟩; exact ⟨by omega, rfl, rfl⟩
    · rintro ⟨_, rfl, rfl⟩; exact ⟨rfl, rfl⟩

theorem Cursor.readU8_eq_error :
    c.readU8 = .error e ↔ c.len < c.off + 1 ∧ e = c.underrunAt c.off 1 := by
  unfold Cursor.readU8 Cursor.memRead8
  split
  · rename_i h; simp only [Except.error_bind_error, Except.error.injEq]
    exact ⟨fun h' => ⟨by omega, h'.symm⟩, fun h' => h'.2.symm⟩
  · rename_i h; simp; omega

theorem Cursor.readU16_eq_ok :
    c.readU16 = .ok (v, c') ↔
      c.off + 2 ≤ c.len ∧ v = le16 (c.buf.read c.off) (c.buf.read (c.off + 1)) ∧ c' = c.advance 2 := by
  unfold Cursor.readU16 Cursor.memRead16
  split
  · rename_i h; simp; omega
  · rename_i h
    simp only [Except.ok_bind_ok, Except.ok.injEq, Prod.mk.injEq]
    constructor
    · rintro ⟨rfl, rfl⟩; exact ⟨by omega, rfl, rfl⟩
    · rintro ⟨_, rfl, rfl⟩; exact ⟨rfl, rfl⟩

theorem Cursor.readU16_eq_error :
    c.readU16 = .error e ↔ c.len < c.off + 2 ∧ e = c.underrunAt c.off 2 := by
  unfold Cursor.readU16 Cursor.memRead16
  split
  · rename_i h; simp only [Except.error_bind_error, Except.error.injEq]
    exact ⟨fun h' => ⟨by omega, h'.symm⟩, fun h' => h'.2.symm⟩
  · rename_i h; simp; omega

/-- What an immediate that was read says: its bytes are before the cursor, and it fits them. -/
theorem Cursor.readU16OrU8_eq_ok {wide : Bool} (h : c.readU16OrU8 wide = .ok (v, c')) :
    c' = c.advance (immLen wide) ∧ immFits wide v = true ∧ c.Holds (immBytes wide v) := by
  cases wide with
  | true =>
    obtain ⟨h1, rfl, rfl⟩ := Cursor.readU16_eq_ok.1 (by simpa [Cursor.readU16OrU8] using h)
    refine ⟨by simp [immLen], by simp [immFits], ?_⟩
    simp [Cursor.Holds, immBytes, h1]
  | false =>
    simp only [Cursor.readU16OrU8, Bool.false_eq_true, if_false, Except.bind_eq_ok, Prod.exists,
      Except.ok.injEq, Prod.mk.injEq] at h
    obtain ⟨b, c1, h1, rfl, rfl⟩ := h
    obtain ⟨h2, rfl, rfl⟩ := Cursor.readU8_eq_ok.1 h1
    refine ⟨by simp [immLen], by simpa [immFits, zext16_toNat] using (c.buf.read c.off).isLt, ?_⟩
    simp [Cursor.Holds, immBytes]
    omega

theorem Cursor.readU16OrU8_eq_error {wide : Bool} (h : c.readU16OrU8 wide = .error e) :
    c.len < c.off + immLen wide ∧ e = c.underrunAt c.off (immLen wide) := by
  cases wide with
  | true => simpa [immLen] using Cursor.readU16_eq_error.1 (by simpa [Cursor.readU16OrU8] using h)
  | false =>
    simp only [Cursor.readU16OrU8, Bool.false_eq_true, if_false, Except.bind_eq_error,
      reduceCtorEq, and_false, exists_false, or_false] at h
    simpa [immLen] using Cursor.readU8_eq_error.1 h

/-- R31: the classifier's peek answers the byte at the offset while one remains. -/
theorem Cursor.peek_one (h : c.off < c.len) : c.peek 1 true = .ok [c.buf.read c.off] := by
  have h1 : min (c.off + 1) c.len - c.off = 1 := by omega
  simp [Cursor.peek, show ¬ c.len < c.off + 1 by omega, h1]

/-- The cursor at the start of a buffer that begins with `bs` has `bs` before it. -/
theorem Cursor.holds_ofBytes (bs cs : List Byte) : (cursorOfBytes (bs ++ cs)).Holds bs := by
  refine ⟨by simp [cursorOfBytes], ?_⟩
  apply List.ext_getElem?
  intro k
  by_cases hk : k < bs.length
  · rw [Memory.getElem?_slice hk]
    simp [cursorOfBytes, Memory.read_ofBytes, List.getElem?_append_left hk, hk]
  · rw [List.getElem?_eq_none (by simp; omega), List.getElem?_eq_none (by omega)]

end Sys2Proof.Machine
end

