-- ==== Sys2Proof/Laws/Decode.lean ====
section
/-! SUPPORT. The common field decoder and the classifier's dispatch: what they answer on given bytes,
and what an answer or an error says of the buffer. -/

namespace Sys2Proof.Machine

variable {c c' : Cursor} {x : RmField} {bs : List Byte} {e : Err} {m : ModCode} {g r : RegCode}

@[simp] theorem length_dispBytes : (dispBytes x).length = dispLen x.mod x.rm := by
  unfold dispBytes
  have := dispLen_le x.mod x.rm
  have h1 := dispLen_eq_one x.mod x.rm
  split_ifs with h h2
  · simp [h1.2 h]
  · simp [h2]
  · have h3 : dispLen x.mod x.rm ≠ 1 := fun h4 => h (h1.1 h4)
    simp
    omega

@[simp] theorem length_immBytes (wide : Bool) (v : Word) : (immBytes wide v).length = immLen wide := by
  cases wide <;> rfl

@[simp] theorem common_rmField : (x.common g).rmField = x := rfl
@[simp] theorem common_reg : (x.common g).reg = g := rfl

/-- R58 to R61: the displacement of a well-formed r/m field is read back from its bytes. -/
theorem decodeDisp_holds (hx : x.wf = true) (h : c.Holds (dispBytes x ++ bs)) :
    decodeDisp x.mod x.rm c = .ok (x.disp, c.advance (dispLen x.mod x.rm)) := by
  unfold decodeDisp
  unfold dispBytes at h
  unfold RmField.wf at hx
  by_cases h1 : x.mod = 0b01#2
  · simp only [h1, if_true] at h hx ⊢
    simp only [decide_eq_true_eq] at hx
    rw [Cursor.readI8_eq, Cursor.readU8_holds h]
    simp [← hx, dispLen]
  · simp only [h1, if_false] at h hx ⊢
    by_cases h2 : dispLen x.mod x.rm = 2
    · simp only [h2, if_true] at h ⊢
      have h16 : c.readU16 = .ok (x.disp, c.advance 2) := by
        simpa using Cursor.readU16_holds h
      by_cases h3 : x.mod = 0b10#2
      · simp [h3, h16]
      · have h4 : x.mod = 0b00#2 ∧ x.rm = 0b110#3 := by
          by_contra hn
          simp [dispLen, h1, h3, hn] at h2
        simp [h4, h16]
    · simp only [h2, if_false, decide_eq_true_eq] at hx
      have h3 : ¬ x.mod = 0b10#2 := fun hn => h2 (by simp [dispLen, hn])
      have h4 : ¬ (x.mod = 0b00#2 ∧ x.rm = 0b110#3) := fun hn => h2 (by simp [dispLen, hn])
      have h0 : dispLen x.mod x.rm = 0 := by simp [dispLen, h1, h3, h4]
      simp [h3, h4, hx, h0]

/-- R57: the common fields are read back from the mod-reg-rm byte and the displacement bytes. -/
theorem decodeCommon_holds (hx : x.wf = true)
    (h : c.Holds (modRegRm x.mod g x.rm :: (dispBytes x ++ bs))) :
    decodeCommon c = .ok (x.common g, c.advance (1 + dispLen x.mod x.rm)) := by
  have hd := decodeDisp_holds hx (Cursor.holds_cons.1 h).2.2
  simp [decodeCommon, Cursor.readU8_holds h, hd, RmField.common]

/-- What a displacement that was read says: its bytes are before the cursor, and the field is
well-formed. -/
theorem decodeDisp_eq_ok {v : Word} (h : decodeDisp m r c = .ok (v, c')) (hc : c.off ≤ c.len) :
    c' = c.advance (dispLen m r) ∧ (RmField.mk m r v).wf = true ∧ c.Holds (dispBytes ⟨m, r, v⟩) := by
  unfold decodeDisp at h
  unfold RmField.wf dispBytes
  by_cases h1 : m = 0b01#2
  · simp only [h1, if_true, Except.bind_eq_ok, Prod.exists, Except.ok.injEq, Prod.mk.injEq] at h
    obtain ⟨b, c1, hb, rfl, rfl⟩ := h
    obtain ⟨h2, rfl, rfl⟩ := Cursor.readU8_eq_ok.1 hb
    subst h1
    refine ⟨by simp [dispLen], by simp, ?_⟩
    simp [Cursor.Holds]
    omega
  · by_cases h2 : m = 0b10#2 ∨ (m = 0b00#2 ∧ r = 0b110#3)
    · have hd : dispLen m r = 2 := by
        unfold dispLen; rcases h2 with h2 | h2 <;> simp [h2]
      have h16 : c.readU16 = .ok (v, c') := by
        rcases h2 with h2 | h2 <;> simpa [h2] using h
      obtain ⟨h3, rfl, rfl⟩ := Cursor.readU16_eq_ok.1 h16
      refine ⟨by rw [hd], by simp [h1, hd], ?_⟩
      simp [Cursor.Holds, h1, hd, h3]
    · rw [not_or] at h2
      simp only [h1, h2.1, h2.2, if_false, Except.ok.injEq, Prod.mk.injEq] at h
      obtain ⟨rfl, rfl⟩ := h
      have hd : dispLen m r = 0 := by simp [dispLen, h1, h2.1, h2.2]
      refine ⟨by simp [hd], by simp [h1, hd], ?_⟩
      simp [h1, hd, Cursor.Holds, hc]

theorem decodeCommon_eq_ok {k : Common} (h : decodeCommon c = .ok (k, c')) :
    c' = c.advance (1 + dispLen k.mod k.rm) ∧ k.rmField.wf = true ∧
      c.Holds (modRegRm k.mod k.reg k.rm :: dispBytes k.rmField) := by
  simp only [decodeCommon, Except.bind_eq_ok, Prod.exists, Except.ok.injEq, Prod.mk.injEq] at h
  obtain ⟨b, c1, hb, v, c2, hv, rfl, rfl⟩ := h
  obtain ⟨h1, rfl, rfl⟩ := Cursor.readU8_eq_ok.1 hb
  obtain ⟨rfl, hw, hh⟩ := decodeDisp_eq_ok hv (by simp; omega)
  refine ⟨by simp, hw, ?_⟩
  rw [Cursor.holds_cons]
  exact ⟨h1, by simp, hh⟩

theorem decodeDisp_eq_error (h : decodeDisp m r c = .error e) :
    1 ≤ dispLen m r ∧ c.len < c.off + dispLen m r ∧ e = c.underrunAt c.off (dispLen m r) := by
  unfold decodeDisp at h
  by_cases h1 : m = 0b01#2
  · simp only [h1, if_true, Except.bind_eq_error, reduceCtorEq, and_false, exists_false, or_false,
      Cursor.readI8_eq] at h
    have h2 := Cursor.readU8_eq_error.1 h
    simp only [dispLen, h1, if_true]
    exact ⟨le_refl _, h2⟩
  · by_cases h2 : m = 0b10#2 ∨ (m = 0b00#2 ∧ r = 0b110#3)
    · have hd : dispLen m r = 2 := by
        unfold dispLen; rcases h2 with h2 | h2 <;> simp [h2]
      have h16 : c.readU16 = .error e := by
        rcases h2 with h2 | h2 <;> simpa [h2] using h
      rw [hd]
      exact ⟨by omega, Cursor.readU16_eq_error.1 h16⟩
    · rw [not_or] at h2
      simp [h1, h2.1, h2.2] at h

/-- An error of the common field decoder: the mod-reg-rm byte or the displacement is missing. -/
theorem decodeCommon_eq_error (h : decodeCommon c = .error e) :
    (c.len < c.off + 1 ∧ e = c.underrunAt c.off 1) ∨
    (c.off < c.len ∧ ∃ n, n = dispLen (modOf (c.buf.read c.off)) (rmOf (c.buf.read c.off)) ∧ 1 ≤ n ∧
      c.len < c.off + 1 + n ∧ e = c.underrunAt (c.off + 1) n) := by
  simp only [decodeCommon, Except.bind_eq_error, Prod.exists, reduceCtorEq, and_false, exists_false,
    or_false] at h
  rcases h with h | ⟨b, c1, hb, h⟩
  · exact .inl (Cursor.readU8_eq_error.1 h)
  · obtain ⟨h1, rfl, rfl⟩ := Cursor.readU8_eq_ok.1 hb
    obtain ⟨h2, h3, h4⟩ := decodeDisp_eq_error h
    exact .inr ⟨h1, _, rfl, h2, h3, h4⟩

/-- R50, R56: with a byte left, the classifier's answer on it decides. -/
theorem decodeInstr_eq (h : c.off < c.len) :
    decodeInstr c = match classify (c.buf.read c.off) with
      | none => .error (.unsupportedOpcode c.off (c.buf.read c.off))
      | some k => decodeFamily k c := by
  rw [decodeInstr, Cursor.peek_one h]
  rfl

/-- R46: the first byte of an encoding is the instruction's opcode byte. -/
theorem encode_eq_cons (i : Instr) : ∃ t, encode i = i.opcode :: t := by
  cases i <;> exact ⟨_, rfl⟩

end Sys2Proof.Machine
end

