-- ==== Sys2Proof/Laws/Operands.lean ====
section
/-! SUPPORT. Operand text: the characters of a decimal number, and the two spellings of a line. -/

namespace Sys2Proof.Machine

/-- The digits written before `acc` are ASCII digits, and at least one is written. -/
theorem decDigits_spec (fuel n : Nat) (acc : List Char) (h : n < fuel) :
    ∃ ds : List Char, decDigits fuel n acc = ds ++ acc ∧ ds ≠ [] ∧
      (∀ c ∈ ds, '0' ≤ c ∧ c ≤ '9') ∧
      ds.foldl (fun v c => 10 * v + (c.toNat - 48)) 0 = n ∧
      (ds.head? = some '0' → ds = ['0']) := by
  have digit : ∀ d, d < 10 → '0' ≤ Char.ofNat (48 + d) ∧ Char.ofNat (48 + d) ≤ '9' ∧
      (Char.ofNat (48 + d)).toNat - 48 = d ∧ (Char.ofNat (48 + d) = '0' → d = 0) := by decide
  induction fuel generalizing n acc with
  | zero => omega
  | succ fuel ih =>
    unfold decDigits
    split
    · rename_i hn
      obtain ⟨h1, h2, h3, h4⟩ := digit n hn
      refine ⟨[Char.ofNat (48 + n)], rfl, by simp, by simpa using ⟨h1, h2⟩, by simpa using h3, ?_⟩
      intro h5
      have h6 : Char.ofNat (48 + n) = '0' := by simpa using h5
      rw [h6]
    · rename_i hn
      obtain ⟨h1, h2, h3, -⟩ := digit (n % 10) (Nat.mod_lt _ (by omega))
      obtain ⟨ds, e1, e2, e3, e4, e5⟩ := ih (n / 10) (Char.ofNat (48 + n % 10) :: acc) (by omega)
      refine ⟨ds ++ [Char.ofNat (48 + n % 10)], by simp [e1], by simp, ?_, ?_, ?_⟩
      · intro c hc
        rcases List.mem_append.1 hc with hc | hc
        · exact e3 c hc
        · obtain rfl : c = Char.ofNat (48 + n % 10) := by simpa using hc
          exact ⟨h1, h2⟩
      · rw [List.foldl_append, e4]
        simp only [List.foldl_cons, List.foldl_nil, h3]
        omega
      · intro h5
        exfalso
        have h6 : ds.head? = some '0' := by
          cases ds with
          | nil => exact absurd rfl e2
          | cons a l => simpa using h5
        have h7 := e5 h6
        rw [h7] at e4
        have : n / 10 = 0 := by rw [← e4]; decide
        omega

theorem line2_mov (a b : String) : line2 "mov" a b = "mov " ++ a ++ ", " ++ b := rfl
theorem line2_add (a b : String) : line2 "add" a b = "add " ++ a ++ ", " ++ b := rfl
theorem line2_sub (a b : String) : line2 "sub" a b = "sub " ++ a ++ ", " ++ b := rfl
theorem line2_cmp (a b : String) : line2 "cmp" a b = "cmp " ++ a ++ ", " ++ b := rfl

end Sys2Proof.Machine
end

