-- ==== Sys2Proof/Laws/Line.lean ====
section
/-! SUPPORT. The shape of a line: how it is kept by joining texts, and the shape of the small texts. -/

namespace Sys2Proof.Machine

/-- Every character of the text is printable. -/
def allPrintable (l : String) : Bool := l.toList.all printable

theorem allPrintable_append {a b : String} (ha : allPrintable a = true) (hb : allPrintable b = true) :
    allPrintable (a ++ b) = true := by
  simp only [allPrintable, String.toList_append, List.all_append, Bool.and_eq_true] at *
  exact ⟨ha, hb⟩

theorem allPrintable_of_lineOk {a : String} (ha : lineOk a = true) : allPrintable a = true := by
  simp only [lineOk, Bool.and_eq_true] at ha
  exact ha.1.1.2

/-- Two texts of the shape of a line, with printable characters between them, have that shape together. -/
theorem lineOk_join {a m b : String} (ha : lineOk a = true) (hm : allPrintable m = true)
    (hb : lineOk b = true) : lineOk (a ++ m ++ b) = true := by
  simp only [lineOk, allPrintable, Bool.and_eq_true, bne_iff_ne, Bool.not_eq_true', String.toList_append] at *
  obtain ⟨⟨⟨a1, a2⟩, a3⟩, a4⟩ := ha
  obtain ⟨⟨⟨b1, b2⟩, b3⟩, b4⟩ := hb
  cases ha' : a.toList with
  | nil => simp [ha'] at a1
  | cons x xs =>
    cases hb' : b.toList using List.reverseRecOn with
    | nil => simp [hb'] at b1
    | append_singleton ys y =>
      simp [ha', hb'] at *
      refine ⟨⟨⟨a2.1, a2.2, hm, b2.1, b2.2⟩, a3⟩, ?_⟩
      rw [show x :: (xs ++ (m.toList ++ (ys ++ [y]))) = (x :: (xs ++ (m.toList ++ ys))) ++ [y] by simp,
        List.getLast?_append]
      simpa using b4

/-- A text without spaces whose characters are printable, and that is not empty, has the shape of a line. -/
theorem lineOk_of_chars {l : String} (h0 : l.toList ≠ [])
    (h : ∀ c ∈ l.toList, printable c = true ∧ c ≠ ' ') : lineOk l = true := by
  simp only [lineOk, Bool.and_eq_true, bne_iff_ne, List.all_eq_true]
  exact ⟨⟨⟨by simpa using h0, fun c hc => (h c hc).1⟩, fun h1 => (h _ (List.mem_of_head? h1)).2 rfl⟩,
    fun h1 => (h _ (List.mem_of_getLast? h1)).2 rfl⟩

theorem lineOk_decNat (n : Nat) : lineOk (decNat n) = true := by
  obtain ⟨ds, h1, h2, h3, -, -⟩ := decDigits_spec (n + 1) n [] (by omega)
  have hl : (decNat n).toList = ds := by simp [decNat, h1]
  refine lineOk_of_chars (by rw [hl]; exact h2) fun c hc => ?_
  rw [hl] at hc
  obtain ⟨a, b⟩ := h3 c hc
  refine ⟨?_, ?_⟩
  · simp only [printable, Bool.and_eq_true, decide_eq_true_eq]
    exact ⟨le_trans (by decide) a, le_trans b (by decide)⟩
  · rintro rfl; revert a; decide

theorem lineOk_decInt (n : Int) : lineOk (decInt n) = true := by
  unfold decInt
  split
  · simpa using lineOk_join (a := "-") (m := "") (by decide) (by decide) (lineOk_decNat _)
  · exact lineOk_decNat _

theorem lineOk_regText (w : Bit) (g : RegCode) : lineOk (regText w g) = true := by revert w g; decide

theorem lineOk_eaText (r : RegCode) : lineOk (eaText r) = true := by revert r; decide

theorem lineOk_sregName (g : RegCode) : lineOk (sregName g) = true := by revert g; decide

theorem lineOk_brackets {m : String} (h : allPrintable m = true) : lineOk ("[" ++ m ++ "]") = true :=
  lineOk_join (by decide) h (by decide)

theorem allPrintable_dispTerm (d : Word) : allPrintable (dispTerm d) = true := by
  unfold dispTerm
  split_ifs
  · decide
  · exact allPrintable_append (by decide) (allPrintable_of_lineOk (lineOk_decInt _))
  · exact allPrintable_append (by decide) (allPrintable_of_lineOk (lineOk_decInt _))

end Sys2Proof.Machine
end

