-- ==== Sys2Proof/Laws/PerInstr.lean ====
section
/-! SUPPORT. Statements about every instruction as syntax, one lemma per constructor: the length of its
encoding (R46, R67), and the classifier's answer on its first byte (R51). -/

namespace Sys2Proof

open Machine

/-- The encoding has the length of R67, which is 2 to 6 (R46). -/
def Laws.EncodeLength.Statement (i : Instr) : Prop :=
  (encode i).length = i.length ∧ 2 ≤ i.length ∧ i.length ≤ 6

theorem Laws.length_ok_rm {n : Nat} {x : RmField} {l : List Byte} (hl : l.length = n)
    (hn : n = 2 + dispLen x.mod x.rm) : l.length = n ∧ 2 ≤ n ∧ n ≤ 6 := by
  have := dispLen_le x.mod x.rm
  omega

theorem Laws.length_ok_rmImm {n : Nat} {x : RmField} {wide : Bool} {l : List Byte} (hl : l.length = n)
    (hn : n = 2 + dispLen x.mod x.rm + immLen wide) : l.length = n ∧ 2 ≤ n ∧ n ≤ 6 := by
  have := dispLen_le x.mod x.rm
  have := immLen_le wide
  omega

theorem Laws.length_ok_imm {n : Nat} {wide : Bool} {l : List Byte} (hl : l.length = n)
    (hn : n = 1 + immLen wide) : l.length = n ∧ 2 ≤ n ∧ n ≤ 6 := by
  have := immLen_le wide
  omega

theorem Laws.length_encodeRm (b : Byte) (g : RegCode) (x : RmField) :
    (encodeRm b g x).length = 2 + dispLen x.mod x.rm := by
  simp only [encodeRm, List.length_cons, length_dispBytes]
  omega

theorem Laws.length_encodeRmImm (b : Byte) (g : RegCode) (x : RmField) (wide : Bool) (v : Word) :
    (encodeRmImm b g x wide v).length = 2 + dispLen x.mod x.rm + immLen wide := by
  simp only [encodeRmImm, List.length_cons, List.length_append, length_dispBytes, length_immBytes]
  omega

/-- The first two reads of an encoding with a mod-reg-rm byte. -/
theorem Laws.reads_encodeRm {c : Cursor} {b : Byte} {g : RegCode} {x : RmField} {bs : List Byte}
    (hx : x.wf = true) (h : c.Holds (encodeRm b g x ++ bs)) :
    c.readU8 = .ok (b, c.advance 1) ∧
      decodeCommon (c.advance 1) = .ok (x.common g, c.advance (2 + dispLen x.mod x.rm)) := by
  refine ⟨Cursor.readU8_holds h, ?_⟩
  have hc := decodeCommon_holds hx (c := c.advance 1) (g := g) (bs := bs)
    (by simpa using (Cursor.holds_cons.1 h).2.2)
  rw [hc, Cursor.advance_advance, ← Nat.add_assoc]

/-- The three reads of an encoding with a mod-reg-rm byte and an immediate. -/
theorem Laws.reads_encodeRmImm {c : Cursor} {b : Byte} {g : RegCode} {x : RmField} {wide : Bool} {v : Word}
    (hx : x.wf = true) (hv : immFits wide v = true) (h : c.Holds (encodeRmImm b g x wide v)) :
    c.readU8 = .ok (b, c.advance 1) ∧
      decodeCommon (c.advance 1) = .ok (x.common g, c.advance (2 + dispLen x.mod x.rm)) ∧
      (c.advance (2 + dispLen x.mod x.rm)).readU16OrU8 wide =
        .ok (v, c.advance (2 + dispLen x.mod x.rm + immLen wide)) := by
  have h' : c.Holds (encodeRm b g x ++ immBytes wide v) := by simpa [encodeRmImm, encodeRm] using h
  obtain ⟨h1, h2⟩ := Laws.reads_encodeRm hx h'
  have h3 := (Cursor.holds_append.1 h').2
  rw [Laws.length_encodeRm] at h3
  have h4 := Cursor.readU16OrU8_holds (bs := []) hv (c := c.advance (2 + dispLen x.mod x.rm)) (by simpa using h3)
  exact ⟨h1, h2, by rw [h4, Cursor.advance_advance]⟩

theorem Laws.length_encodeImm (b : Byte) (wide : Bool) (v : Word) :
    (encodeImm b wide v).length = 1 + immLen wide := by
  simp only [encodeImm, List.length_cons, length_immBytes]
  omega

theorem Laws.EncodeLength.movRmReg (d : Bit) (w : Bit) (reg : RegCode) (x : RmField) : Laws.EncodeLength.Statement (.movRmReg d w reg x) :=
  Laws.length_ok_rm (Laws.length_encodeRm _ _ _) rfl

theorem Laws.EncodeLength.movSegStore (reg : RegCode) (x : RmField) : Laws.EncodeLength.Statement (.movSegStore reg x) :=
  Laws.length_ok_rm (Laws.length_encodeRm _ _ _) rfl

theorem Laws.EncodeLength.movSegLoad (reg : RegCode) (x : RmField) : Laws.EncodeLength.Statement (.movSegLoad reg x) :=
  Laws.length_ok_rm (Laws.length_encodeRm _ _ _) rfl

theorem Laws.EncodeLength.movRegImm (w : Bit) (reg : RegCode) (imm : Word) : Laws.EncodeLength.Statement (.movRegImm w reg imm) :=
  Laws.length_ok_imm (Laws.length_encodeImm _ _ _) rfl

theorem Laws.EncodeLength.movRmImm (w : Bit) (reg : RegCode) (x : RmField) (imm : Word) : Laws.EncodeLength.Statement (.movRmImm w reg x imm) :=
  Laws.length_ok_rmImm (Laws.length_encodeRmImm _ _ _ _ _) rfl

theorem Laws.EncodeLength.movMemToAcc (w : Bit) (addr : Word) : Laws.EncodeLength.Statement (.movMemToAcc w addr) :=
  ⟨rfl, by simp [Instr.length], by simp [Instr.length]⟩

theorem Laws.EncodeLength.movAccToMem (w : Bit) (addr : Word) : Laws.EncodeLength.Statement (.movAccToMem w addr) :=
  ⟨rfl, by simp [Instr.length], by simp [Instr.length]⟩

theorem Laws.EncodeLength.addRmReg (d : Bit) (w : Bit) (reg : RegCode) (x : RmField) : Laws.EncodeLength.Statement (.addRmReg d w reg x) :=
  Laws.length_ok_rm (Laws.length_encodeRm _ _ _) rfl

theorem Laws.EncodeLength.subRmReg (d : Bit) (w : Bit) (reg : RegCode) (x : RmField) : Laws.EncodeLength.Statement (.subRmReg d w reg x) :=
  Laws.length_ok_rm (Laws.length_encodeRm _ _ _) rfl

theorem Laws.EncodeLength.cmpRmReg (d : Bit) (w : Bit) (reg : RegCode) (x : RmField) : Laws.EncodeLength.Statement (.cmpRmReg d w reg x) :=
  Laws.length_ok_rm (Laws.length_encodeRm _ _ _) rfl

theorem Laws.EncodeLength.addRmImm (s : Bit) (w : Bit) (x : RmField) (imm : Word) : Laws.EncodeLength.Statement (.addRmImm s w x imm) :=
  Laws.length_ok_rmImm (Laws.length_encodeRmImm _ _ _ _ _) rfl

theorem Laws.EncodeLength.subRmImm (s : Bit) (w : Bit) (x : RmField) (imm : Word) : Laws.EncodeLength.Statement (.subRmImm s w x imm) :=
  Laws.length_ok_rmImm (Laws.length_encodeRmImm _ _ _ _ _) rfl

theorem Laws.EncodeLength.cmpRmImm (s : Bit) (w : Bit) (x : RmField) (imm : Word) : Laws.EncodeLength.Statement (.cmpRmImm s w x imm) :=
  Laws.length_ok_rmImm (Laws.length_encodeRmImm _ _ _ _ _) rfl

theorem Laws.EncodeLength.addAccImm (w : Bit) (imm : Word) : Laws.EncodeLength.Statement (.addAccImm w imm) :=
  Laws.length_ok_imm (Laws.length_encodeImm _ _ _) rfl

theorem Laws.EncodeLength.subAccImm (w : Bit) (imm : Word) : Laws.EncodeLength.Statement (.subAccImm w imm) :=
  Laws.length_ok_imm (Laws.length_encodeImm _ _ _) rfl

theorem Laws.EncodeLength.cmpAccImm (w : Bit) (imm : Word) : Laws.EncodeLength.Statement (.cmpAccImm w imm) :=
  Laws.length_ok_imm (Laws.length_encodeImm _ _ _) rfl

theorem Laws.EncodeLength.jo (rel8 : Byte) : Laws.EncodeLength.Statement (.jo rel8) :=
  ⟨rfl, by simp [Instr.length], by simp [Instr.length]⟩

theorem Laws.EncodeLength.jno (rel8 : Byte) : Laws.EncodeLength.Statement (.jno rel8) :=
  ⟨rfl, by simp [Instr.length], by simp [Instr.length]⟩

theorem Laws.EncodeLength.jb (rel8 : Byte) : Laws.EncodeLength.Statement (.jb rel8) :=
  ⟨rfl, by simp [Instr.length], by simp [Instr.length]⟩

theorem Laws.EncodeLength.jnb (rel8 : Byte) : Laws.EncodeLength.Statement (.jnb rel8) :=
  ⟨rfl, by simp [Instr.length], by simp [Instr.length]⟩

theorem Laws.EncodeLength.jz (rel8 : Byte) : Laws.EncodeLength.Statement (.jz rel8) :=
  ⟨rfl, by simp [Instr.length], by simp [Instr.length]⟩

theorem Laws.EncodeLength.jnz (rel8 : Byte) : Laws.EncodeLength.Statement (.jnz rel8) :=
  ⟨rfl, by simp [Instr.length], by simp [Instr.length]⟩

theorem Laws.EncodeLength.jbe (rel8 : Byte) : Laws.EncodeLength.Statement (.jbe rel8) :=
  ⟨rfl, by simp [Instr.length], by simp [Instr.length]⟩

theorem Laws.EncodeLength.ja (rel8 : Byte) : Laws.EncodeLength.Statement (.ja rel8) :=
  ⟨rfl, by simp [Instr.length], by simp [Instr.length]⟩

theorem Laws.EncodeLength.js (rel8 : Byte) : Laws.EncodeLength.Statement (.js rel8) :=
  ⟨rfl, by simp [Instr.length], by simp [Instr.length]⟩

theorem Laws.EncodeLength.jns (rel8 : Byte) : Laws.EncodeLength.Statement (.jns rel8) :=
  ⟨rfl, by simp [Instr.length], by simp [Instr.length]⟩

theorem Laws.EncodeLength.jp (rel8 : Byte) : Laws.EncodeLength.Statement (.jp rel8) :=
  ⟨rfl, by simp [Instr.length], by simp [Instr.length]⟩

theorem Laws.EncodeLength.jnp (rel8 : Byte) : Laws.EncodeLength.Statement (.jnp rel8) :=
  ⟨rfl, by simp [Instr.length], by simp [Instr.length]⟩

theorem Laws.EncodeLength.jl (rel8 : Byte) : Laws.EncodeLength.Statement (.jl rel8) :=
  ⟨rfl, by simp [Instr.length], by simp [Instr.length]⟩

theorem Laws.EncodeLength.jnl (rel8 : Byte) : Laws.EncodeLength.Statement (.jnl rel8) :=
  ⟨rfl, by simp [Instr.length], by simp [Instr.length]⟩

theorem Laws.EncodeLength.jle (rel8 : Byte) : Laws.EncodeLength.Statement (.jle rel8) :=
  ⟨rfl, by simp [Instr.length], by simp [Instr.length]⟩

theorem Laws.EncodeLength.jg (rel8 : Byte) : Laws.EncodeLength.Statement (.jg rel8) :=
  ⟨rfl, by simp [Instr.length], by simp [Instr.length]⟩

theorem Laws.EncodeLength.loopnz (rel8 : Byte) : Laws.EncodeLength.Statement (.loopnz rel8) :=
  ⟨rfl, by simp [Instr.length], by simp [Instr.length]⟩

theorem Laws.EncodeLength.loopz (rel8 : Byte) : Laws.EncodeLength.Statement (.loopz rel8) :=
  ⟨rfl, by simp [Instr.length], by simp [Instr.length]⟩

theorem Laws.EncodeLength.loop (rel8 : Byte) : Laws.EncodeLength.Statement (.loop rel8) :=
  ⟨rfl, by simp [Instr.length], by simp [Instr.length]⟩

theorem Laws.EncodeLength.jcxz (rel8 : Byte) : Laws.EncodeLength.Statement (.jcxz rel8) :=
  ⟨rfl, by simp [Instr.length], by simp [Instr.length]⟩

/-- What the classifier reads from the first byte of an instruction (R53 to R55). -/
def Laws.opClass : Instr → OpClass
  | .movRmReg _ _ _ _ => .move .regMemReg
  | .movSegStore _ _ => .move .regMemReg
  | .movSegLoad _ _ => .move .regMemReg
  | .movRegImm _ _ _ => .move .immToReg
  | .movRmImm _ _ _ _ => .move .immToRegMem
  | .movMemToAcc _ _ => .move .memToAcc
  | .movAccToMem _ _ => .move .accToMem
  | .addRmReg _ _ _ _ => .arithRegMemReg .add
  | .subRmReg _ _ _ _ => .arithRegMemReg .sub
  | .cmpRmReg _ _ _ _ => .arithRegMemReg .cmp
  | .addRmImm _ _ _ _ => .arithImmToRegMem
  | .subRmImm _ _ _ _ => .arithImmToRegMem
  | .cmpRmImm _ _ _ _ => .arithImmToRegMem
  | .addAccImm _ _ => .arithImmToAcc .add
  | .subAccImm _ _ => .arithImmToAcc .sub
  | .cmpAccImm _ _ => .arithImmToAcc .cmp
  | .jo _ => .jcc
  | .jno _ => .jcc
  | .jb _ => .jcc
  | .jnb _ => .jcc
  | .jz _ => .jcc
  | .jnz _ => .jcc
  | .jbe _ => .jcc
  | .ja _ => .jcc
  | .js _ => .jcc
  | .jns _ => .jcc
  | .jp _ => .jcc
  | .jnp _ => .jcc
  | .jl _ => .jcc
  | .jnl _ => .jcc
  | .jle _ => .jcc
  | .jg _ => .jcc
  | .loopnz _ => .loop
  | .loopz _ => .loop
  | .loop _ => .loop
  | .jcxz _ => .loop

/-- The classifier answers the instruction's class on its first byte (R51). -/
def Laws.OpcodeClass.Statement (i : Instr) : Prop := classify i.opcode = some (Laws.opClass i)

theorem Laws.OpcodeClass.movRmReg (d : Bit) (w : Bit) (reg : RegCode) (x : RmField) : Laws.OpcodeClass.Statement (.movRmReg d w reg x) := by
  simp only [Laws.OpcodeClass.Statement, Instr.opcode, Laws.opClass]
  revert d w
  decide

theorem Laws.OpcodeClass.movSegStore (reg : RegCode) (x : RmField) : Laws.OpcodeClass.Statement (.movSegStore reg x) := by
  simp only [Laws.OpcodeClass.Statement, Instr.opcode, Laws.opClass]
  decide

theorem Laws.OpcodeClass.movSegLoad (reg : RegCode) (x : RmField) : Laws.OpcodeClass.Statement (.movSegLoad reg x) := by
  simp only [Laws.OpcodeClass.Statement, Instr.opcode, Laws.opClass]
  decide

theorem Laws.OpcodeClass.movRegImm (w : Bit) (reg : RegCode) (imm : Word) : Laws.OpcodeClass.Statement (.movRegImm w reg imm) := by
  simp only [Laws.OpcodeClass.Statement, Instr.opcode, Laws.opClass]
  revert w reg
  decide

theorem Laws.OpcodeClass.movRmImm (w : Bit) (reg : RegCode) (x : RmField) (imm : Word) : Laws.OpcodeClass.Statement (.movRmImm w reg x imm) := by
  simp only [Laws.OpcodeClass.Statement, Instr.opcode, Laws.opClass]
  revert w
  decide

theorem Laws.OpcodeClass.movMemToAcc (w : Bit) (addr : Word) : Laws.OpcodeClass.Statement (.movMemToAcc w addr) := by
  simp only [Laws.OpcodeClass.Statement, Instr.opcode, Laws.opClass]
  revert w
  decide

theorem Laws.OpcodeClass.movAccToMem (w : Bit) (addr : Word) : Laws.OpcodeClass.Statement (.movAccToMem w addr) := by
  simp only [Laws.OpcodeClass.Statement, Instr.opcode, Laws.opClass]
  revert w
  decide

theorem Laws.OpcodeClass.addRmReg (d : Bit) (w : Bit) (reg : RegCode) (x : RmField) : Laws.OpcodeClass.Statement (.addRmReg d w reg x) := by
  simp only [Laws.OpcodeClass.Statement, Instr.opcode, Laws.opClass]
  revert d w
  decide

theorem Laws.OpcodeClass.subRmReg (d : Bit) (w : Bit) (reg : RegCode) (x : RmField) : Laws.OpcodeClass.Statement (.subRmReg d w reg x) := by
  simp only [Laws.OpcodeClass.Statement, Instr.opcode, Laws.opClass]
  revert d w
  decide

theorem Laws.OpcodeClass.cmpRmReg (d : Bit) (w : Bit) (reg : RegCode) (x : RmField) : Laws.OpcodeClass.Statement (.cmpRmReg d w reg x) := by
  simp only [Laws.OpcodeClass.Statement, Instr.opcode, Laws.opClass]
  revert d w
  decide

theorem Laws.OpcodeClass.addRmImm (s : Bit) (w : Bit) (x : RmField) (imm : Word) : Laws.OpcodeClass.Statement (.addRmImm s w x imm) := by
  simp only [Laws.OpcodeClass.Statement, Instr.opcode, Laws.opClass]
  revert s w
  decide

theorem Laws.OpcodeClass.subRmImm (s : Bit) (w : Bit) (x : RmField) (imm : Word) : Laws.OpcodeClass.Statement (.subRmImm s w x imm) := by
  simp only [Laws.OpcodeClass.Statement, Instr.opcode, Laws.opClass]
  revert s w
  decide

theorem Laws.OpcodeClass.cmpRmImm (s : Bit) (w : Bit) (x : RmField) (imm : Word) : Laws.OpcodeClass.Statement (.cmpRmImm s w x imm) := by
  simp only [Laws.OpcodeClass.Statement, Instr.opcode, Laws.opClass]
  revert s w
  decide

theorem Laws.OpcodeClass.addAccImm (w : Bit) (imm : Word) : Laws.OpcodeClass.Statement (.addAccImm w imm) := by
  simp only [Laws.OpcodeClass.Statement, Instr.opcode, Laws.opClass]
  revert w
  decide

theorem Laws.OpcodeClass.subAccImm (w : Bit) (imm : Word) : Laws.OpcodeClass.Statement (.subAccImm w imm) := by
  simp only [Laws.OpcodeClass.Statement, Instr.opcode, Laws.opClass]
  revert w
  decide

theorem Laws.OpcodeClass.cmpAccImm (w : Bit) (imm : Word) : Laws.OpcodeClass.Statement (.cmpAccImm w imm) := by
  simp only [Laws.OpcodeClass.Statement, Instr.opcode, Laws.opClass]
  revert w
  decide

theorem Laws.OpcodeClass.jo (rel8 : Byte) : Laws.OpcodeClass.Statement (.jo rel8) := by
  simp only [Laws.OpcodeClass.Statement, Instr.opcode, Laws.opClass]
  decide

theorem Laws.OpcodeClass.jno (rel8 : Byte) : Laws.OpcodeClass.Statement (.jno rel8) := by
  simp only [Laws.OpcodeClass.Statement, Instr.opcode, Laws.opClass]
  decide

theorem Laws.OpcodeClass.jb (rel8 : Byte) : Laws.OpcodeClass.Statement (.jb rel8) := by
  simp only [Laws.OpcodeClass.Statement, Instr.opcode, Laws.opClass]
  decide

theorem Laws.OpcodeClass.jnb (rel8 : Byte) : Laws.OpcodeClass.Statement (.jnb rel8) := by
  simp only [Laws.OpcodeClass.Statement, Instr.opcode, Laws.opClass]
  decide

theorem Laws.OpcodeClass.jz (rel8 : Byte) : Laws.OpcodeClass.Statement (.jz rel8) := by
  simp only [Laws.OpcodeClass.Statement, Instr.opcode, Laws.opClass]
  decide

theorem Laws.OpcodeClass.jnz (rel8 : Byte) : Laws.OpcodeClass.Statement (.jnz rel8) := by
  simp only [Laws.OpcodeClass.Statement, Instr.opcode, Laws.opClass]
  decide

theorem Laws.OpcodeClass.jbe (rel8 : Byte) : Laws.OpcodeClass.Statement (.jbe rel8) := by
  simp only [Laws.OpcodeClass.Statement, Instr.opcode, Laws.opClass]
  decide

theorem Laws.OpcodeClass.ja (rel8 : Byte) : Laws.OpcodeClass.Statement (.ja rel8) := by
  simp only [Laws.OpcodeClass.Statement, Instr.opcode, Laws.opClass]
  decide

theorem Laws.OpcodeClass.js (rel8 : Byte) : Laws.OpcodeClass.Statement (.js rel8) := by
  simp only [Laws.OpcodeClass.Statement, Instr.opcode, Laws.opClass]
  decide

theorem Laws.OpcodeClass.jns (rel8 : Byte) : Laws.OpcodeClass.Statement (.jns rel8) := by
  simp only [Laws.OpcodeClass.Statement, Instr.opcode, Laws.opClass]
  decide

theorem Laws.OpcodeClass.jp (rel8 : Byte) : Laws.OpcodeClass.Statement (.jp rel8) := by
  simp only [Laws.OpcodeClass.Statement, Instr.opcode, Laws.opClass]
  decide

theorem Laws.OpcodeClass.jnp (rel8 : Byte) : Laws.OpcodeClass.Statement (.jnp rel8) := by
  simp only [Laws.OpcodeClass.Statement, Instr.opcode, Laws.opClass]
  decide

theorem Laws.OpcodeClass.jl (rel8 : Byte) : Laws.OpcodeClass.Statement (.jl rel8) := by
  simp only [Laws.OpcodeClass.Statement, Instr.opcode, Laws.opClass]
  decide

theorem Laws.OpcodeClass.jnl (rel8 : Byte) : Laws.OpcodeClass.Statement (.jnl rel8) := by
  simp only [Laws.OpcodeClass.Statement, Instr.opcode, Laws.opClass]
  decide

theorem Laws.OpcodeClass.jle (rel8 : Byte) : Laws.OpcodeClass.Statement (.jle rel8) := by
  simp only [Laws.OpcodeClass.Statement, Instr.opcode, Laws.opClass]
  decide

theorem Laws.OpcodeClass.jg (rel8 : Byte) : Laws.OpcodeClass.Statement (.jg rel8) := by
  simp only [Laws.OpcodeClass.Statement, Instr.opcode, Laws.opClass]
  decide

theorem Laws.OpcodeClass.loopnz (rel8 : Byte) : Laws.OpcodeClass.Statement (.loopnz rel8) := by
  simp only [Laws.OpcodeClass.Statement, Instr.opcode, Laws.opClass]
  decide

theorem Laws.OpcodeClass.loopz (rel8 : Byte) : Laws.OpcodeClass.Statement (.loopz rel8) := by
  simp only [Laws.OpcodeClass.Statement, Instr.opcode, Laws.opClass]
  decide

theorem Laws.OpcodeClass.loop (rel8 : Byte) : Laws.OpcodeClass.Statement (.loop rel8) := by
  simp only [Laws.OpcodeClass.Statement, Instr.opcode, Laws.opClass]
  decide

theorem Laws.OpcodeClass.jcxz (rel8 : Byte) : Laws.OpcodeClass.Statement (.jcxz rel8) := by
  simp only [Laws.OpcodeClass.Statement, Instr.opcode, Laws.opClass]
  decide

theorem Laws.encode_length (i : Instr) : (encode i).length = i.length ∧ 2 ≤ i.length ∧ i.length ≤ 6 := by
  cases i with
  | movRmReg d w reg x => exact Laws.EncodeLength.movRmReg d w reg x
  | movSegStore reg x => exact Laws.EncodeLength.movSegStore reg x
  | movSegLoad reg x => exact Laws.EncodeLength.movSegLoad reg x
  | movRegImm w reg imm => exact Laws.EncodeLength.movRegImm w reg imm
  | movRmImm w reg x imm => exact Laws.EncodeLength.movRmImm w reg x imm
  | movMemToAcc w addr => exact Laws.EncodeLength.movMemToAcc w addr
  | movAccToMem w addr => exact Laws.EncodeLength.movAccToMem w addr
  | addRmReg d w reg x => exact Laws.EncodeLength.addRmReg d w reg x
  | subRmReg d w reg x => exact Laws.EncodeLength.subRmReg d w reg x
  | cmpRmReg d w reg x => exact Laws.EncodeLength.cmpRmReg d w reg x
  | addRmImm s w x imm => exact Laws.EncodeLength.addRmImm s w x imm
  | subRmImm s w x imm => exact Laws.EncodeLength.subRmImm s w x imm
  | cmpRmImm s w x imm => exact Laws.EncodeLength.cmpRmImm s w x imm
  | addAccImm w imm => exact Laws.EncodeLength.addAccImm w imm
  | subAccImm w imm => exact Laws.EncodeLength.subAccImm w imm
  | cmpAccImm w imm => exact Laws.EncodeLength.cmpAccImm w imm
  | jo rel8 => exact Laws.EncodeLength.jo rel8
  | jno rel8 => exact Laws.EncodeLength.jno rel8
  | jb rel8 => exact Laws.EncodeLength.jb rel8
  | jnb rel8 => exact Laws.EncodeLength.jnb rel8
  | jz rel8 => exact Laws.EncodeLength.jz rel8
  | jnz rel8 => exact Laws.EncodeLength.jnz rel8
  | jbe rel8 => exact Laws.EncodeLength.jbe rel8
  | ja rel8 => exact Laws.EncodeLength.ja rel8
  | js rel8 => exact Laws.EncodeLength.js rel8
  | jns rel8 => exact Laws.EncodeLength.jns rel8
  | jp rel8 => exact Laws.EncodeLength.jp rel8
  | jnp rel8 => exact Laws.EncodeLength.jnp rel8
  | jl rel8 => exact Laws.EncodeLength.jl rel8
  | jnl rel8 => exact Laws.EncodeLength.jnl rel8
  | jle rel8 => exact Laws.EncodeLength.jle rel8
  | jg rel8 => exact Laws.EncodeLength.jg rel8
  | loopnz rel8 => exact Laws.EncodeLength.loopnz rel8
  | loopz rel8 => exact Laws.EncodeLength.loopz rel8
  | loop rel8 => exact Laws.EncodeLength.loop rel8
  | jcxz rel8 => exact Laws.EncodeLength.jcxz rel8

theorem Laws.classify_opcode (i : Instr) : classify i.opcode = some (Laws.opClass i) := by
  cases i with
  | movRmReg d w reg x => exact Laws.OpcodeClass.movRmReg d w reg x
  | movSegStore reg x => exact Laws.OpcodeClass.movSegStore reg x
  | movSegLoad reg x => exact Laws.OpcodeClass.movSegLoad reg x
  | movRegImm w reg imm => exact Laws.OpcodeClass.movRegImm w reg imm
  | movRmImm w reg x imm => exact Laws.OpcodeClass.movRmImm w reg x imm
  | movMemToAcc w addr => exact Laws.OpcodeClass.movMemToAcc w addr
  | movAccToMem w addr => exact Laws.OpcodeClass.movAccToMem w addr
  | addRmReg d w reg x => exact Laws.OpcodeClass.addRmReg d w reg x
  | subRmReg d w reg x => exact Laws.OpcodeClass.subRmReg d w reg x
  | cmpRmReg d w reg x => exact Laws.OpcodeClass.cmpRmReg d w reg x
  | addRmImm s w x imm => exact Laws.OpcodeClass.addRmImm s w x imm
  | subRmImm s w x imm => exact Laws.OpcodeClass.subRmImm s w x imm
  | cmpRmImm s w x imm => exact Laws.OpcodeClass.cmpRmImm s w x imm
  | addAccImm w imm => exact Laws.OpcodeClass.addAccImm w imm
  | subAccImm w imm => exact Laws.OpcodeClass.subAccImm w imm
  | cmpAccImm w imm => exact Laws.OpcodeClass.cmpAccImm w imm
  | jo rel8 => exact Laws.OpcodeClass.jo rel8
  | jno rel8 => exact Laws.OpcodeClass.jno rel8
  | jb rel8 => exact Laws.OpcodeClass.jb rel8
  | jnb rel8 => exact Laws.OpcodeClass.jnb rel8
  | jz rel8 => exact Laws.OpcodeClass.jz rel8
  | jnz rel8 => exact Laws.OpcodeClass.jnz rel8
  | jbe rel8 => exact Laws.OpcodeClass.jbe rel8
  | ja rel8 => exact Laws.OpcodeClass.ja rel8
  | js rel8 => exact Laws.OpcodeClass.js rel8
  | jns rel8 => exact Laws.OpcodeClass.jns rel8
  | jp rel8 => exact Laws.OpcodeClass.jp rel8
  | jnp rel8 => exact Laws.OpcodeClass.jnp rel8
  | jl rel8 => exact Laws.OpcodeClass.jl rel8
  | jnl rel8 => exact Laws.OpcodeClass.jnl rel8
  | jle rel8 => exact Laws.OpcodeClass.jle rel8
  | jg rel8 => exact Laws.OpcodeClass.jg rel8
  | loopnz rel8 => exact Laws.OpcodeClass.loopnz rel8
  | loopz rel8 => exact Laws.OpcodeClass.loopz rel8
  | loop rel8 => exact Laws.OpcodeClass.loop rel8
  | jcxz rel8 => exact Laws.OpcodeClass.jcxz rel8

end Sys2Proof
end

