-- ==== Sys2Proof/Laws/State.lean ====
section
/-! SUPPORT. One lemma per field for each update of the state. -/

namespace Sys2Proof.Machine

variable (s : State) (e : Err) (r : Record) (l : String) (bs : List Byte)

@[simp] theorem raise_params : (raise e s).params = s.params := rfl
@[simp] theorem raise_buf : (raise e s).buf = s.buf := rfl
@[simp] theorem raise_len : (raise e s).len = s.len := rfl
@[simp] theorem raise_off : (raise e s).off = s.off := rfl
@[simp] theorem raise_phase : (raise e s).phase = .error := rfl
@[simp] theorem raise_text : (raise e s).text = s.text := rfl
@[simp] theorem raise_count : (raise e s).count = s.count := rfl
@[simp] theorem raise_last : (raise e s).last = s.last := rfl
@[simp] theorem raise_err : (raise e s).err = some e := rfl

@[simp] theorem finish_params : (finish s).params = s.params := rfl
@[simp] theorem finish_buf : (finish s).buf = s.buf := rfl
@[simp] theorem finish_len : (finish s).len = s.len := rfl
@[simp] theorem finish_off : (finish s).off = s.off := rfl
@[simp] theorem finish_phase : (finish s).phase = .done := rfl
@[simp] theorem finish_text : (finish s).text = s.text := rfl
@[simp] theorem finish_count : (finish s).count = s.count := rfl
@[simp] theorem finish_last : (finish s).last = s.last := rfl
@[simp] theorem finish_err : (finish s).err = s.err := rfl

@[simp] theorem commit_params : (commit r l s).params = s.params := rfl
@[simp] theorem commit_buf : (commit r l s).buf = s.buf := rfl
@[simp] theorem commit_len : (commit r l s).len = s.len := rfl
@[simp] theorem commit_off : (commit r l s).off = s.off + r.len := rfl
@[simp] theorem commit_phase : (commit r l s).phase = s.phase := rfl
@[simp] theorem commit_text : (commit r l s).text = s.text ++ l ++ "\n" := rfl
@[simp] theorem commit_count : (commit r l s).count = s.count + 1 := rfl
@[simp] theorem commit_last : (commit r l s).last = some r := rfl
@[simp] theorem commit_err : (commit r l s).err = s.err := rfl

@[simp] theorem placeAtFetch_params : (placeAtFetch bs s).params = s.params := rfl
@[simp] theorem placeAtFetch_buf : (placeAtFetch bs s).buf = s.buf.writeBytes s.off bs := rfl
@[simp] theorem placeAtFetch_len : (placeAtFetch bs s).len = max s.len (s.off + bs.length) := rfl
@[simp] theorem placeAtFetch_off : (placeAtFetch bs s).off = s.off := rfl
@[simp] theorem placeAtFetch_phase : (placeAtFetch bs s).phase = .run := rfl
@[simp] theorem placeAtFetch_text : (placeAtFetch bs s).text = s.text := rfl
@[simp] theorem placeAtFetch_count : (placeAtFetch bs s).count = s.count := rfl
@[simp] theorem placeAtFetch_last : (placeAtFetch bs s).last = s.last := rfl
@[simp] theorem placeAtFetch_err : (placeAtFetch bs s).err = s.err := rfl

@[simp] theorem cursor_buf : s.cursor.buf = s.buf := rfl
@[simp] theorem cursor_len : s.cursor.len = s.len := rfl
@[simp] theorem cursor_start : s.cursor.start = s.off := rfl
@[simp] theorem cursor_off : s.cursor.off = s.off := rfl

end Sys2Proof.Machine
end

