-- ==== Sys2Proof/Laws/Step.lean ====
section
/-! SUPPORT. What a meaning does, and what a step does, said once. -/

namespace Sys2Proof.Machine

/-- Every meaning ends in a successful step: it commits a record that starts at the offset and has the
instruction's length. -/
theorem exec_commit (i : Instr) (s : State) :
    ∃ r l, exec i s = .next (commit r l s) ∧ r.start = s.off ∧ r.len = i.length := by
  cases i <;> exact ⟨_, _, rfl, rfl, rfl⟩

/-- Everything a step that answers a state can do (R139): the end of the stream, one decoded
instruction, or one error. -/
theorem step_cases {s t : State} (h : step s = .next t) :
    s.phase = .run ∧
    ((s.off = s.len ∧ t = finish s) ∨
     (s.off ≠ s.len ∧ ∃ i c, decodeInstr s.cursor = .ok (i, c) ∧ exec i s = .next t) ∨
     (s.off ≠ s.len ∧ ∃ e, decodeInstr s.cursor = .error e ∧ t = raise e s)) := by
  unfold step at h
  split at h
  · cases h
  · cases h
  · rename_i hp
    refine ⟨hp, ?_⟩
    split at h
    · rename_i ho
      cases h
      exact .inl ⟨ho, rfl⟩
    · rename_i ho
      split at h
      · rename_i i c hd
        exact .inr (.inl ⟨ho, i, c, hd, h⟩)
      · rename_i e hd
        cases h
        exact .inr (.inr ⟨ho, e, hd, rfl⟩)

theorem step_run_end {s : State} (hp : s.phase = .run) (ho : s.off = s.len) :
    step s = .next (finish s) := by simp [step, hp, ho]

theorem step_run_ok {s : State} {i : Instr} {c : Cursor} (hp : s.phase = .run) (ho : s.off ≠ s.len)
    (hd : decodeInstr s.cursor = .ok (i, c)) : step s = exec i s := by simp [step, hp, ho, hd]

theorem step_run_error {s : State} {e : Err} (hp : s.phase = .run) (ho : s.off ≠ s.len)
    (hd : decodeInstr s.cursor = .error e) : step s = .next (raise e s) := by simp [step, hp, ho, hd]

end Sys2Proof.Machine
end

