-- ==== Sys2Proof/Laws/Truncated.lean ====
section
/-! SUPPORT. A buffer that ends inside given bytes: which read fails, and the Underrun it raises. -/

namespace Sys2Proof.Machine

variable {c : Cursor} {b lo hi : Byte} {bs cs : List Byte} {v : Word} {x : RmField} {g : RegCode} {e : Err}

/-- The buffer ends after some, but not all, of `bs`, counted from the cursor. -/
def Cursor.Cut (c : Cursor) (bs : List Byte) : Prop :=
  c.off ≤ c.len ∧ c.len < c.off + bs.length ∧ c.buf.slice c.off (c.len - c.off) = bs.take (c.len - c.off)

theorem Cursor.cut_cons (h : c.Cut (b :: bs)) :
    c.off = c.len ∨ (c.off < c.len ∧ c.buf.read c.off = b ∧ (c.advance 1).Cut bs) := by
  obtain ⟨h1, h2, h3⟩ := h
  by_cases h0 : c.off = c.len
  · exact .inl h0
  · obtain ⟨k, hk⟩ : ∃ k, c.len = c.off + (k + 1) := ⟨c.len - c.off - 1, by omega⟩
    rw [show c.len - c.off = k + 1 by omega] at h3
    simp only [Memory.slice_succ, List.take_succ_cons, List.cons.injEq] at h3
    simp only [List.length_cons] at h2
    refine .inr ⟨by omega, h3.1, ?_, ?_, ?_⟩
    · simp; omega
    · simp; omega
    · simpa [show c.len - (c.off + 1) = k by omega] using h3.2

/-- The cut lies in the first part, or the first part is whole and the cut lies in the second. -/
theorem Cursor.cut_append (h : c.Cut (bs ++ cs)) :
    c.Cut bs ∨ (c.Holds bs ∧ (c.advance bs.length).Cut cs) := by
  induction bs generalizing c with
  | nil => exact .inr ⟨Cursor.holds_nil.2 h.1, h⟩
  | cons a as ih =>
    rcases Cursor.cut_cons h with h0 | ⟨h0, h1, h2⟩
    · exact .inl ⟨by omega, by simp; omega, by simp [h0]⟩
    · rcases ih h2 with h3 | ⟨h3, h4⟩
      · obtain ⟨h5, h6, h7⟩ := h3
        simp only [Cursor.advance_len, Cursor.advance_off, Cursor.advance_buf] at h5 h6 h7
        obtain ⟨k, hk⟩ : ∃ k, c.len - c.off = k + 1 := ⟨c.len - c.off - 1, by omega⟩
        refine .inl ⟨by omega, by simp; omega, ?_⟩
        rw [hk]
        rw [show c.len - (c.off + 1) = k by omega] at h7
        simp [h1, h7]
      · exact .inr ⟨Cursor.holds_cons.2 ⟨h0, h1, h3⟩, by simpa [Nat.add_comm] using h4⟩

theorem Cursor.readU8_cut (h : c.Cut [b]) : c.readU8 = .error (c.underrunAt c.off 1) := by
  have h1 := h.2.1
  simp only [List.length_cons, List.length_nil] at h1
  exact Cursor.readU8_eq_error.2 ⟨by omega, rfl⟩

theorem Cursor.readU16_cut (h : c.Cut [lo, hi]) : c.readU16 = .error (c.underrunAt c.off 2) := by
  have h1 := h.2.1
  simp only [List.length_cons, List.length_nil] at h1
  exact Cursor.readU16_eq_error.2 ⟨by omega, rfl⟩

theorem Cursor.readU16OrU8_cut {wide : Bool} (h : c.Cut (immBytes wide v)) :
    c.readU16OrU8 wide = .error (c.underrunAt c.off (immLen wide)) := by
  cases wide
  · simp [Cursor.readU16OrU8, Cursor.readU8_cut h, immLen]
  · simp [Cursor.readU16OrU8, Cursor.readU16_cut h, immLen]

theorem decodeDisp_cut (h : c.Cut (dispBytes x)) :
    1 ≤ dispLen x.mod x.rm ∧
      decodeDisp x.mod x.rm c = .error (c.underrunAt c.off (dispLen x.mod x.rm)) := by
  have h2 := h.2.1
  rw [length_dispBytes] at h2
  refine ⟨by have := h.1; omega, ?_⟩
  cases he : decodeDisp x.mod x.rm c with
  | error e => rw [(decodeDisp_eq_error he).2.2]
  | ok p =>
    have h3 := (decodeDisp_eq_ok he h.1).2.2.1
    rw [length_dispBytes] at h3
    simp only at h3
    omega

/-- The common field decoder on a cut mod-reg-rm byte and displacement. -/
theorem decodeCommon_cut (h : c.Cut (modRegRm x.mod g x.rm :: dispBytes x)) :
    (c.off = c.len ∧ decodeCommon c = .error (c.underrunAt c.off 1)) ∨
    (c.off < c.len ∧ c.len < c.off + 1 + dispLen x.mod x.rm ∧ 1 ≤ dispLen x.mod x.rm ∧
      decodeCommon c = .error (c.underrunAt (c.off + 1) (dispLen x.mod x.rm))) := by
  have hl := h.2.1
  rcases Cursor.cut_cons h with h0 | ⟨h0, h1, h2⟩
  · have h8 : c.readU8 = .error (c.underrunAt c.off 1) := Cursor.readU8_eq_error.2 ⟨by omega, rfl⟩
    exact .inl ⟨h0, by simp [decodeCommon, h8]⟩
  · obtain ⟨h3, h4⟩ := decodeDisp_cut h2
    have h8 : c.readU8 = .ok (modRegRm x.mod g x.rm, c.advance 1) :=
      Cursor.readU8_eq_ok.2 ⟨h0, h1.symm, rfl⟩
    refine .inr ⟨h0, by simp only [List.length_cons, length_dispBytes] at hl; omega, h3, ?_⟩
    simp only [decodeCommon, h8, Except.ok_bind_ok, modOf_modRegRm, rmOf_modRegRm, h4,
      Except.error_bind_error]
    rfl

end Sys2Proof.Machine
end

