-- ==== Sys2Proof/Tests/Slice0.lean ====
section
/-! SUPPORT. The model's own tests. Expected values are those of spec/95_test_vectors.md and of the
examples in the rules; the words are written out from the encodings of spec/30_encoding.md. After the tests
stand the witnesses: states and operands that meet the hypotheses of each statement. -/

namespace Sys2Proof.Tests

open Sys2Proof Sys2Proof.Machine

/-- The state after `load bytes` from reset, with the parameters `p`. -/
def stateWith (p : Params) (bytes : List Byte) : State :=
  { State.reset with params := p, buf := Memory.ofBytes bytes, len := bytes.length }

/-- The state after `load bytes` from reset. -/
def stateOf (bytes : List Byte) : State := stateWith defaultParams bytes

/-- The next state of an outcome. -/
def nextOf (o : Out) : Option State :=
  match o with
  | .next t => some t
  | .fault _ => none
  | .refused _ => none

/-- The text after one step. -/
def textAfter (s : State) : Option String := (nextOf (step s)).map (·.text)

/-- The error after one step. -/
def errAfter (s : State) : Option Err := (nextOf (step s)).bind (·.err)

/-- The record after one step. -/
def lastAfter (s : State) : Option Record := (nextOf (step s)).bind (·.last)

/-- What the decoder reads: the instruction and the number of bytes. -/
def reads (bytes : List Byte) : Option (Instr × Nat) := (decode bytes).toOption

/-! ### WellFormed refuses -/

theorem test_wf_disp8_not_sign_extended :
    (Instr.movRmReg 0#1 1#1 0b011#3 ⟨0b01#2, 0b000#3, 0x0080#16⟩).wf = false := by decide

theorem test_wf_disp8_at_its_limits :
    (Instr.movRmReg 0#1 1#1 0b011#3 ⟨0b01#2, 0b000#3, 0xFF80#16⟩).wf = true ∧
    (Instr.movRmReg 0#1 1#1 0b011#3 ⟨0b01#2, 0b000#3, 0x007F#16⟩).wf = true := by decide

theorem test_wf_displacement_without_bytes :
    (Instr.addRmReg 0#1 1#1 0b011#3 ⟨0b11#2, 0b000#3, 1#16⟩).wf = false ∧
    (Instr.movSegStore 0b011#3 ⟨0b00#2, 0b111#3, 1#16⟩).wf = false := by decide

theorem test_wf_direct_address_takes_any_word :
    (Instr.movSegLoad 0b011#3 ⟨0b00#2, 0b110#3, 0xFFFF#16⟩).wf = true := by decide

theorem test_wf_byte_immediate_too_large :
    (Instr.movRegImm 0#1 0b000#3 256#16).wf = false ∧
    (Instr.movRmImm 0#1 0b000#3 ⟨0b11#2, 0b000#3, 0#16⟩ 256#16).wf = false ∧
    (Instr.addAccImm 0#1 256#16).wf = false := by decide

theorem test_wf_group_immediate_too_large :
    (Instr.addRmImm 1#1 1#1 ⟨0b11#2, 0b000#3, 0#16⟩ 0xFFFB#16).wf = false ∧
    (Instr.subRmImm 0#1 0#1 ⟨0b11#2, 0b000#3, 0#16⟩ 256#16).wf = false ∧
    (Instr.cmpRmImm 0#1 1#1 ⟨0b11#2, 0b000#3, 0#16⟩ 0xFFFB#16).wf = true := by decide

/-! ### Every constructor's decoding, from a word written out -/

theorem test_decode_mov_register_memory :
    reads [0b10001001#8, 0b11_011_001#8] = some (.movRmReg 0#1 1#1 0b011#3 ⟨0b11#2, 0b001#3, 0#16⟩, 2) ∧
    reads [0b10001011#8, 0b10_000_111#8, 0x00#8, 0x80#8] =
      some (.movRmReg 1#1 1#1 0b000#3 ⟨0b10#2, 0b111#3, 0x8000#16⟩, 4) := by decide

theorem test_decode_mov_segment_forms :
    reads [0b10001100#8, 0b00_011_110#8, 0x00#8, 0x10#8] =
      some (.movSegStore 0b011#3 ⟨0b00#2, 0b110#3, 4096#16⟩, 4) ∧
    reads [0b10001110#8, 0b11_011_000#8] = some (.movSegLoad 0b011#3 ⟨0b11#2, 0b000#3, 0#16⟩, 2) := by decide

theorem test_decode_mov_immediate :
    reads [0b1011_0_100#8, 0x80#8] = some (.movRegImm 0#1 0b100#3 128#16, 2) ∧
    reads [0b1011_1_001#8, 0x0C#8, 0x00#8] = some (.movRegImm 1#1 0b001#3 12#16, 3) ∧
    reads [0b11000111#8, 0b10_000_101#8, 0x5B#8, 0x01#8, 0x6F#8, 0x01#8] =
      some (.movRmImm 1#1 0b000#3 ⟨0b10#2, 0b101#3, 347#16⟩ 367#16, 6) ∧
    reads [0b11000110#8, 0b11_000_011#8, 0x07#8] =
      some (.movRmImm 0#1 0b000#3 ⟨0b11#2, 0b011#3, 0#16⟩ 7#16, 3) := by decide

theorem test_decode_mov_accumulator :
    reads [0b10100001#8, 0xFB#8, 0x09#8] = some (.movMemToAcc 1#1 2555#16, 3) ∧
    reads [0b10100010#8, 0x0F#8, 0x00#8] = some (.movAccToMem 0#1 15#16, 3) := by decide

theorem test_decode_arithmetic_register_memory :
    reads [0b00000011#8, 0b01_001_110#8, 0xFC#8] =
      some (.addRmReg 1#1 1#1 0b001#3 ⟨0b01#2, 0b110#3, 0xFFFC#16⟩, 3) ∧
    reads [0b00101001#8, 0b11_011_000#8] = some (.subRmReg 0#1 1#1 0b011#3 ⟨0b11#2, 0b000#3, 0#16⟩, 2) ∧
    reads [0b00111010#8, 0b00_000_111#8] = some (.cmpRmReg 1#1 0#1 0b000#3 ⟨0b00#2, 0b111#3, 0#16⟩, 2) := by
  decide

theorem test_decode_arithmetic_immediate :
    reads [0b10000001#8, 0b11_000_011#8, 0xE8#8, 0x03#8] =
      some (.addRmImm 0#1 1#1 ⟨0b11#2, 0b011#3, 0#16⟩ 1000#16, 4) ∧
    reads [0b10000011#8, 0b11_101_000#8, 0x01#8] =
      some (.subRmImm 1#1 1#1 ⟨0b11#2, 0b000#3, 0#16⟩ 1#16, 3) ∧
    reads [0b10000000#8, 0b11_111_111#8, 0x7F#8] =
      some (.cmpRmImm 0#1 0#1 ⟨0b11#2, 0b111#3, 0#16⟩ 127#16, 3) := by decide

theorem test_decode_arithmetic_accumulator :
    reads [0b00000100#8, 0x09#8] = some (.addAccImm 0#1 9#16, 2) ∧
    reads [0b00101101#8, 0xFF#8, 0xFF#8] = some (.subAccImm 1#1 65535#16, 3) ∧
    reads [0b00111100#8, 0x80#8] = some (.cmpAccImm 0#1 128#16, 2) := by decide

theorem test_decode_conditional_jumps_low :
    reads [0b01110000#8, 0x00#8] = some (.jo 0x00#8, 2) ∧ reads [0b01110001#8, 0x02#8] = some (.jno 0x02#8, 2) ∧
    reads [0b01110010#8, 0xFE#8] = some (.jb 0xFE#8, 2) ∧ reads [0b01110011#8, 0x7F#8] = some (.jnb 0x7F#8, 2) ∧
    reads [0b01110100#8, 0xFC#8] = some (.jz 0xFC#8, 2) ∧ reads [0b01110101#8, 0x80#8] = some (.jnz 0x80#8, 2) ∧
    reads [0b01110110#8, 0x10#8] = some (.jbe 0x10#8, 2) ∧ reads [0b01110111#8, 0xF0#8] = some (.ja 0xF0#8, 2) := by
  decide

theorem test_decode_conditional_jumps_high :
    reads [0b01111000#8, 0x05#8] = some (.js 0x05#8, 2) ∧ reads [0b01111001#8, 0xFB#8] = some (.jns 0xFB#8, 2) ∧
    reads [0b01111010#8, 0x01#8] = some (.jp 0x01#8, 2) ∧ reads [0b01111011#8, 0xFF#8] = some (.jnp 0xFF#8, 2) ∧
    reads [0b01111100#8, 0x20#8] = some (.jl 0x20#8, 2) ∧ reads [0b01111101#8, 0xE0#8] = some (.jnl 0xE0#8, 2) ∧
    reads [0b01111110#8, 0x40#8] = some (.jle 0x40#8, 2) ∧ reads [0b01111111#8, 0xC0#8] = some (.jg 0xC0#8, 2) := by
  decide

theorem test_decode_loop_forms :
    reads [0b11100000#8, 0xFE#8] = some (.loopnz 0xFE#8, 2) ∧
    reads [0b11100001#8, 0x04#8] = some (.loopz 0x04#8, 2) ∧
    reads [0b11100010#8, 0xF6#8] = some (.loop 0xF6#8, 2) ∧
    reads [0b11100011#8, 0x7F#8] = some (.jcxz 0x7F#8, 2) := by decide

/-! ### One step from reset: the text -/

/-- The source's scenario 1 (S1). -/
theorem test_text_S1 : textAfter (stateOf [0x89#8, 0xD9#8]) = some "bits 16\nmov cx, bx\n" := by decide

theorem test_text_mov_register_memory :
    textAfter (stateOf [0x8A#8, 0x60#8, 0x04#8]) = some "bits 16\nmov ah, [bx + si + 4]\n" ∧
    textAfter (stateOf [0x8B#8, 0x06#8, 0xFF#8, 0xFF#8]) = some "bits 16\nmov ax, [65535]\n" ∧
    textAfter (stateOf [0x89#8, 0x46#8, 0x00#8]) = some "bits 16\nmov [bp], ax\n" ∧
    textAfter (stateOf [0x8B#8, 0x87#8, 0x00#8, 0x80#8]) = some "bits 16\nmov ax, [bx - 32768]\n" := by decide

theorem test_text_mov_segment_forms :
    textAfter (stateOf [0x8C#8, 0xD8#8]) = some "bits 16\nmov al, bl\n" ∧
    textAfter (stateOf [0x8E#8, 0xD8#8]) = some "bits 16\nmov bl, al\n" := by decide

theorem test_text_mov_segment_forms_under_segment :
    textAfter (stateWith { defaultParams with sregText := .segment } [0x8C#8, 0xD8#8]) =
      some "bits 16\nmov ax, ds\n" ∧
    textAfter (stateWith { defaultParams with sregText := .segment } [0x8E#8, 0x1E#8, 0x00#8, 0x10#8]) =
      some "bits 16\nmov ds, [4096]\n" := by decide

theorem test_text_mov_immediate :
    textAfter (stateOf [0xB8#8, 0xFF#8, 0xFF#8]) = some "bits 16\nmov ax, 65535\n" ∧
    textAfter (stateOf [0xB4#8, 0x80#8]) = some "bits 16\nmov ah, 128\n" ∧
    textAfter (stateOf [0xC7#8, 0x87#8, 0x34#8, 0x12#8, 0x78#8, 0x56#8]) =
      some "bits 16\nmov [bx + 4660], word 22136\n" ∧
    textAfter (stateOf [0xC6#8, 0x46#8, 0xFE#8, 0x80#8]) = some "bits 16\nmov [bp - 2], byte 128\n" ∧
    textAfter (stateOf [0xC6#8, 0xC0#8, 0x07#8]) = some "bits 16\nmov al, 7\n" := by decide

theorem test_text_mov_accumulator :
    textAfter (stateOf [0xA0#8, 0x10#8, 0x00#8]) = some "bits 16\nmov ax, [16]\n" ∧
    textAfter (stateOf [0xA3#8, 0xFA#8, 0x09#8]) = some "bits 16\nmov [2554], ax\n" := by decide

theorem test_text_arithmetic_register_memory :
    textAfter (stateOf [0x00#8, 0xD8#8]) = some "bits 16\nadd al, bl\n" ∧
    textAfter (stateOf [0x2B#8, 0x87#8, 0xE8#8, 0x03#8]) = some "bits 16\nsub ax, [bx + 1000]\n" ∧
    textAfter (stateOf [0x3B#8, 0x06#8, 0x10#8, 0x00#8]) = some "bits 16\ncmp ax, [16]\n" := by decide

theorem test_text_arithmetic_immediate :
    textAfter (stateOf [0x81#8, 0x86#8, 0x00#8, 0x01#8, 0xFF#8, 0x7F#8]) =
      some "bits 16\nadd word [bp + 256], 32767\n" ∧
    textAfter (stateOf [0x82#8, 0xC0#8, 0xFF#8]) = some "bits 16\nadd al, 255\n" ∧
    textAfter (stateOf [0x81#8, 0x2E#8, 0x10#8, 0x00#8, 0xE8#8, 0x03#8]) = some "bits 16\nsub word [16], 1000\n" ∧
    textAfter (stateOf [0x80#8, 0x3E#8, 0x10#8, 0x00#8, 0xFF#8]) = some "bits 16\ncmp byte [16], 255\n" := by
  decide

theorem test_text_sign_extended_immediate :
    textAfter (stateOf [0x83#8, 0xC0#8, 0xFB#8]) = some "bits 16\nadd ax, -5\n" ∧
    textAfter (stateWith { defaultParams with imm8sText := .wordUnsigned } [0x83#8, 0xC0#8, 0xFB#8]) =
      some "bits 16\nadd ax, 65531\n" ∧
    textAfter (stateWith { defaultParams with imm8sText := .byteUnsigned } [0x83#8, 0xC0#8, 0xFB#8]) =
      some "bits 16\nadd ax, 251\n" ∧
    textAfter (stateOf [0x83#8, 0x7E#8, 0x00#8, 0xFB#8]) = some "bits 16\ncmp word [bp], -5\n" := by decide

theorem test_text_arithmetic_accumulator :
    textAfter (stateOf [0x05#8, 0xE8#8, 0x03#8]) = some "bits 16\nadd ax, 1000\n" ∧
    textAfter (stateOf [0x2C#8, 0x05#8]) = some "bits 16\nsub al, 5\n" ∧
    textAfter (stateOf [0x3C#8, 0x80#8]) = some "bits 16\ncmp al, 128\n" := by decide

theorem test_text_conditional_jumps_low :
    textAfter (stateOf [0x70#8, 0x00#8]) = some "bits 16\njo $+2+0\n" ∧
    textAfter (stateOf [0x71#8, 0x02#8]) = some "bits 16\njno $+2+2\n" ∧
    textAfter (stateOf [0x72#8, 0xFE#8]) = some "bits 16\njb $+2-2\n" ∧
    textAfter (stateOf [0x73#8, 0x7F#8]) = some "bits 16\njnb $+2+127\n" ∧
    textAfter (stateOf [0x74#8, 0xFC#8]) = some "bits 16\njz $+2-4\n" ∧
    textAfter (stateOf [0x75#8, 0x80#8]) = some "bits 16\njnz $+2-128\n" ∧
    textAfter (stateOf [0x76#8, 0x10#8]) = some "bits 16\njbe $+2+16\n" ∧
    textAfter (stateOf [0x77#8, 0xF0#8]) = some "bits 16\nja $+2-16\n" := by decide

theorem test_text_conditional_jumps_high :
    textAfter (stateOf [0x78#8, 0x05#8]) = some "bits 16\njs $+2+5\n" ∧
    textAfter (stateOf [0x79#8, 0xFB#8]) = some "bits 16\njns $+2-5\n" ∧
    textAfter (stateOf [0x7A#8, 0x01#8]) = some "bits 16\njp $+2+1\n" ∧
    textAfter (stateOf [0x7B#8, 0xFF#8]) = some "bits 16\njnp $+2-1\n" ∧
    textAfter (stateOf [0x7C#8, 0x20#8]) = some "bits 16\njl $+2+32\n" ∧
    textAfter (stateOf [0x7D#8, 0xE0#8]) = some "bits 16\njnl $+2-32\n" ∧
    textAfter (stateOf [0x7E#8, 0x40#8]) = some "bits 16\njle $+2+64\n" ∧
    textAfter (stateOf [0x7F#8, 0xC0#8]) = some "bits 16\njg $+2-64\n" := by decide

theorem test_text_loop_forms :
    textAfter (stateOf [0xE0#8, 0xFE#8]) = some "bits 16\nloopnz $+2-2\n" ∧
    textAfter (stateOf [0xE1#8, 0x04#8]) = some "bits 16\nloopz $+2+4\n" ∧
    textAfter (stateOf [0xE2#8, 0xF6#8]) = some "bits 16\nloop $+2-10\n" ∧
    textAfter (stateOf [0xE3#8, 0x7F#8]) = some "bits 16\njcxz $+2+127\n" := by decide

/-- The rows of section L2.5 with mod = 00, 01 and 10. -/
theorem test_memory_texts :
    (List.finRange 8).map (fun k => rmText ⟨0b00#2, BitVec.ofFin k, 258#16⟩ 1#1) =
      ["[bx + si]", "[bx + di]", "[bp + si]", "[bp + di]", "[si]", "[di]", "[258]", "[bx]"] ∧
    (List.finRange 8).map (fun k => rmText ⟨0b01#2, BitVec.ofFin k, 4#16⟩ 1#1) =
      ["[bx + si + 4]", "[bx + di + 4]", "[bp + si + 4]", "[bp + di + 4]", "[si + 4]", "[di + 4]",
       "[bp + 4]", "[bx + 4]"] ∧
    (List.finRange 8).map (fun k => rmText ⟨0b10#2, BitVec.ofFin k, 0xFF00#16⟩ 1#1) =
      ["[bx + si - 256]", "[bx + di - 256]", "[bp + si - 256]", "[bp + di - 256]", "[si - 256]", "[di - 256]",
       "[bp - 256]", "[bx - 256]"] := by decide

/-! ### Records, errors, the end of the stream -/

/-- The last record of program P1, decoded at its offset 10. -/
theorem test_record_P1 :
    lastAfter { stateOf [0xB9#8, 0x05#8, 0x00#8, 0xB8#8, 0x00#8, 0x00#8, 0x01#8, 0xC8#8, 0xE2#8, 0xFC#8,
        0xA3#8, 0x10#8, 0x00#8] with off := 10 } =
      some (.move
        { form := .accToMem, common := none, data := some 16#16, opcode := 0xA3#8, d := 0#1, w := 1#1,
          opreg := none, dataWide := true, start := 10, len := 3 }) := by decide

/-- The last record of program P2, decoded at its offset 15. -/
theorem test_record_P2 :
    lastAfter { stateOf [0xBE#8, 0x04#8, 0x00#8, 0x8A#8, 0x40#8, 0x04#8, 0x3C#8, 0x0A#8, 0x75#8, 0x05#8,
        0xC6#8, 0x06#8, 0x20#8, 0x00#8, 0x01#8, 0x83#8, 0x6E#8, 0xFE#8, 0x01#8] with off := 15 } =
      some (.arithmetic
        { form := .immToRegMem, op := .sub, common := some ⟨0b01#2, 0b101#3, 0b110#3, -2⟩,
          data := some 1#16, d := 0#1, s := 1#1, w := 1#1, opcode := 0x83#8, dataWide := false, start := 15,
          len := 4 }) := by decide

theorem test_error_unsupported :
    errAfter (stateOf [0x90#8]) = some (.unsupportedOpcode 0 0x90#8) ∧
    errAfter (stateOf [0x8D#8, 0x00#8]) = some (.unsupportedOpcode 0 0x8D#8) ∧
    errAfter { stateOf [0xB0#8, 0x01#8, 0x0F#8, 0x05#8] with off := 2 } =
      some (.unsupportedOpcode 2 0x0F#8) := by decide

theorem test_error_invalid_operation :
    errAfter (stateOf [0x83#8, 0xC8#8, 0x01#8]) = some (.invalidOperation 0 0x83#8 0b001#3) ∧
    errAfter (stateOf [0x83#8, 0xF0#8, 0x01#8]) = some (.invalidOperation 0 0x83#8 0b110#3) ∧
    errAfter (stateOf [0x83#8, 0x0E#8, 0x10#8, 0x00#8, 0x01#8]) = some (.invalidOperation 0 0x83#8 0b001#3) := by
  decide

theorem test_error_order_in_the_group :
    errAfter (stateOf [0x83#8, 0xC8#8]) = some (.invalidOperation 0 0x83#8 0b001#3) ∧
    errAfter (stateOf [0x83#8, 0x4E#8]) = some (.underrun 0 2 1 0) := by decide

theorem test_error_underrun :
    errAfter (stateOf [0x8B#8]) = some (.underrun 0 1 1 0) ∧
    errAfter (stateOf [0x8B#8, 0x46#8]) = some (.underrun 0 2 1 0) ∧
    errAfter (stateOf [0xC6#8, 0x06#8, 0x10#8]) = some (.underrun 0 2 2 1) ∧
    errAfter (stateOf [0xA1#8, 0x10#8]) = some (.underrun 0 1 2 1) ∧
    errAfter { stateOf [0x04#8, 0x09#8, 0x3D#8, 0x00#8] with off := 2 } = some (.underrun 2 3 2 1) ∧
    errAfter (stateOf [0xE2#8]) = some (.underrun 0 1 1 0) := by decide

/-- Program P6: the empty buffer. -/
theorem test_end_of_stream :
    nextOf (step State.reset) = some { State.reset with phase := .done } := by decide

/-! ### The host's words -/

theorem test_table_word_rows :
    decodeTableWord 16 0x8800 = some (.movRmReg 0#1 0#1 0b000#3 ⟨0b00#2, 0b000#3, 0#16⟩) ∧
    decodeTableWord 16 0x8028 = some (.subRmImm 0#1 0#1 ⟨0b00#2, 0b000#3, 0#16⟩ 0#16) ∧
    decodeTableWord 8 0x74 = some (.jz 0#8) ∧ decodeTableWord 16 0x8008 = none := by decide

theorem test_fetch_word_runs_the_row :
    textAfter (State.reset.withFetchWord 16 0x8038) = some "bits 16\ncmp byte [bx + si], 0\n" ∧
    textAfter (State.reset.withFetchWord 8 0xB8) = some "bits 16\nmov ax, 0\n" := by decide

/-- The buffer after `withFetchWord` keeps the canonical form. -/
theorem test_fetch_word_memory : (State.reset.withFetchWord 16 0x8038).buf.wf = true := by decide

/-! ### Witnesses: the hypotheses of each statement, met together -/

/-- A buffer that is exactly `bs` is a state about to decode `bs`. -/
theorem atBytes_stateOf (bs : List Byte) : AtBytes (stateOf bs) bs := by
  have h := Cursor.holds_ofBytes bs []
  simp only [List.append_nil] at h
  exact ⟨rfl, h.1, h.2⟩

/-- A buffer that is `bs` without its last bytes is a state whose buffer ends inside `bs`. -/
theorem cutShort_stateOf {bs ps : List Byte} (k : Nat) (hp : ps = bs.take k) (h0 : 0 < k)
    (hk : k < bs.length) : CutShort (stateOf ps) bs := by
  subst hp
  have h := Cursor.holds_ofBytes (bs.take k) []
  simp only [List.append_nil] at h
  have hl : (stateOf (bs.take k)).len = k := by simp [stateOf, stateWith]; omega
  have h2 := h.2
  rw [show (bs.take k).length = k by simp; omega] at h2
  refine ⟨rfl, ?_, ?_, ?_⟩
  · rw [hl]; exact h0
  · rw [hl]; simp [stateOf, stateWith, State.reset]; omega
  · rw [hl]; exact h2

/-- Before the first instruction, in RUN or at the end of an empty buffer, the invariant holds. -/
theorem inv_of_fresh (s : State) (h1 : paramsOk s.params = true) (h2 : s.buf.wf = true)
    (h3 : s.buf.below s.len = true) (h4 : lenAllowed s.params s.len = true) (h5 : s.off = 0)
    (h6 : s.phase = .done → s.len = 0) (h7 : s.err.isSome = true ↔ s.phase = .error)
    (h8 : ∀ e, s.err = some e → errMatches s e) (h9 : s.last = none) (h10 : s.count = 0)
    (h11 : s.text = header) : Inv s := by
  refine ⟨h1, h2, h3, h4, by omega, fun h => by rw [h5, h6 h], h7, h8, by simp [h9, h10], ?_, by omega, [], ?_, ?_, ?_, ?_⟩
  · intro r hr; rw [h9] at hr; cases hr
  · simp [h10]
  · simp
  · rw [h11]; rfl
  · intro r hr; rw [h9] at hr; cases hr

theorem inv_run : Inv (stateOf [0x89#8, 0xD9#8]) :=
  inv_of_fresh _ (by decide) (by decide) (by decide) rfl rfl (by decide) (by decide)
    (fun e h => by cases h) rfl rfl rfl

theorem inv_done : Inv { stateOf [] with phase := .done } :=
  inv_of_fresh _ (by decide) (by decide) (by decide) rfl rfl (by decide) (by decide)
    (fun e h => by cases h) rfl rfl rfl

theorem inv_error :
    Inv { stateOf [0x90#8] with phase := .error, err := some (.unsupportedOpcode 0 0x90#8) } :=
  inv_of_fresh _ (by decide) (by decide) (by decide) rfl rfl (by decide) (by decide)
    (fun e h => by cases h; exact ⟨rfl, by decide, by decide, by decide⟩) rfl rfl rfl

/-- Each range of the classifier at its two ends, and the illegal bytes beside it. -/
theorem witness_ClassifierAnswersByRange :
    [0x88#8, 0x8C#8, 0x8E#8, 0xC6#8, 0xC7#8, 0xB0#8, 0xBF#8, 0xA0#8, 0xA1#8, 0xA2#8, 0xA3#8].map classify =
      [some (.move .regMemReg), some (.move .regMemReg), some (.move .regMemReg), some (.move .immToRegMem),
       some (.move .immToRegMem), some (.move .immToReg), some (.move .immToReg), some (.move .memToAcc),
       some (.move .memToAcc), some (.move .accToMem), some (.move .accToMem)] ∧
    [0x00#8, 0x03#8, 0x04#8, 0x05#8, 0x28#8, 0x2B#8, 0x2C#8, 0x2D#8, 0x38#8, 0x3B#8, 0x3C#8, 0x3D#8].map classify =
      [some (.arithRegMemReg .add), some (.arithRegMemReg .add), some (.arithImmToAcc .add),
       some (.arithImmToAcc .add), some (.arithRegMemReg .sub), some (.arithRegMemReg .sub),
       some (.arithImmToAcc .sub), some (.arithImmToAcc .sub), some (.arithRegMemReg .cmp),
       some (.arithRegMemReg .cmp), some (.arithImmToAcc .cmp), some (.arithImmToAcc .cmp)] ∧
    [0x80#8, 0x83#8, 0x70#8, 0x7F#8, 0xE0#8, 0xE3#8].map classify =
      [some .arithImmToRegMem, some .arithImmToRegMem, some .jcc, some .jcc, some .loop, some .loop] ∧
    [0x06#8, 0x27#8, 0x2E#8, 0x37#8, 0x3E#8, 0x6F#8, 0x84#8, 0x87#8, 0x8D#8, 0x8F#8, 0x9F#8, 0xA4#8, 0xAF#8,
      0xC0#8, 0xC5#8, 0xC8#8, 0xDF#8, 0xE4#8, 0xFF#8].all (fun b => classify b == none) = true := by decide

theorem witness_DecodeOfEncodeIsInstruction :
    (Instr.movRmImm 1#1 0b111#3 ⟨0b10#2, 0b101#3, 0x8000#16⟩ 0xFFFF#16).wf = true ∧
    (cursorOfBytes [0xC7#8, 0xBD#8, 0x00#8, 0x80#8, 0xFF#8, 0xFF#8]).Holds
      (encode (.movRmImm 1#1 0b111#3 ⟨0b10#2, 0b101#3, 0x8000#16⟩ 0xFFFF#16)) :=
  ⟨by decide, by decide, by decide⟩

theorem witness_EncodeOfDecodeIsBytesConsumed :
    decodeInstr (cursorOfBytes [0x83#8, 0xC0#8, 0xFB#8, 0x90#8]) =
      .ok (.addRmImm 1#1 1#1 ⟨0b11#2, 0b000#3, 0#16⟩ 0xFB#16,
        (cursorOfBytes [0x83#8, 0xC0#8, 0xFB#8, 0x90#8]).advance 3) := rfl

/-- A step from RUN to RUN. -/
theorem witness_StepAdvancesByLengthFormula :
    ∃ t, step (stateOf [0x89#8, 0xD9#8]) = .next t ∧ t.phase = .run := ⟨_, rfl, rfl⟩

/-- Each case of the common field decoder: no byte; mod = 01 with and without its byte; the two-byte
displacements, whole and short; no displacement. -/
theorem witness_CommonFieldsDecoded :
    (cursorOfBytes []).len < (cursorOfBytes []).off + 1 ∧
    modOf ((cursorOfBytes [0x46#8, 0x80#8]).buf.read 0) = 0b01#2 ∧ (cursorOfBytes [0x46#8]).len < 0 + 2 ∧
    modOf ((cursorOfBytes [0x86#8, 0xFF#8, 0x7F#8]).buf.read 0) = 0b10#2 ∧
    (cursorOfBytes [0x86#8, 0xFF#8]).len < 0 + 3 ∧
    (modOf ((cursorOfBytes [0x06#8, 0x00#8, 0x80#8]).buf.read 0) = 0b00#2 ∧
      rmOf ((cursorOfBytes [0x06#8, 0x00#8, 0x80#8]).buf.read 0) = 0b110#3) ∧
    modOf ((cursorOfBytes [0xC0#8]).buf.read 0) = 0b11#2 ∧
    (modOf ((cursorOfBytes [0x07#8]).buf.read 0) = 0b00#2 ∧
      rmOf ((cursorOfBytes [0x07#8]).buf.read 0) ≠ 0b110#3) := by decide

/-- Reads that fit exactly, and reads one byte too long. -/
theorem witness_ReadPrimitives :
    (cursorOfBytes [0x80#8, 0x7F#8]).off + 2 ≤ (cursorOfBytes [0x80#8, 0x7F#8]).len ∧
    (cursorOfBytes [0x80#8]).off < (cursorOfBytes [0x80#8]).len ∧
    (cursorOfBytes [0x80#8]).len < (cursorOfBytes [0x80#8]).off + 2 ∧
    (cursorOfBytes []).len < (cursorOfBytes []).off + 1 := by decide

/-- Each case of the r/m operand's text, the displacement at its limits. -/
theorem witness_MemoryOperandText :
    rmText ⟨0b11#2, 0b111#3, 0#16⟩ 0#1 = "bh" ∧ rmText ⟨0b00#2, 0b110#3, 0xFFFF#16⟩ 0#1 = "[65535]" ∧
    rmText ⟨0b00#2, 0b111#3, 0#16⟩ 0#1 = "[bx]" ∧ rmText ⟨0b01#2, 0b110#3, 0#16⟩ 0#1 = "[bp]" ∧
    rmText ⟨0b10#2, 0b000#3, 0x7FFF#16⟩ 0#1 = "[bx + si + 32767]" ∧
    rmText ⟨0b10#2, 0b111#3, 0x8000#16⟩ 0#1 = "[bx - 32768]" ∧
    rmText ⟨0b01#2, 0b000#3, 0xFF80#16⟩ 0#1 = "[bx + si - 128]" := by decide

theorem witness_DecimalTextIsPlain : 0 < 128 ∧ decInt (-128) = "-128" ∧ decInt 0 = "0" := by decide

/-- Each case of the group's immediate at its limits. -/
theorem witness_GroupImmediateText :
    immText defaultParams 1#1 1#1 127#16 = "127" ∧ immText defaultParams 1#1 1#1 128#16 = "-128" ∧
    immText defaultParams 1#1 1#1 255#16 = "-1" ∧
    immText { defaultParams with imm8sText := .wordUnsigned } 1#1 1#1 127#16 = "127" ∧
    immText { defaultParams with imm8sText := .wordUnsigned } 1#1 1#1 128#16 = "65408" ∧
    immText { defaultParams with imm8sText := .byteUnsigned } 1#1 1#1 255#16 = "255" ∧
    immText defaultParams 0#1 1#1 65535#16 = "65535" ∧ immText defaultParams 1#1 0#1 255#16 = "255" := by decide

theorem witness_MovRegisterMemoryRule :
    (RmField.mk 0b01#2 0b110#3 0xFF80#16).wf = true ∧
    AtBytes (stateOf [0x8B#8, 0x46#8, 0x80#8]) [0x8B#8, 0x46#8, 0x80#8] ∧
    CutShort (stateOf [0x8B#8, 0x46#8]) [0x8B#8, 0x46#8, 0x80#8] :=
  ⟨by decide, atBytes_stateOf _, cutShort_stateOf 2 rfl (by decide) (by decide)⟩

theorem witness_MovSegmentFormsRule :
    (RmField.mk 0b00#2 0b110#3 0x1000#16).wf = true ∧
    AtBytes (stateOf [0x8C#8, 0x1E#8, 0x00#8, 0x10#8]) [0x8C#8, 0x1E#8, 0x00#8, 0x10#8] ∧
    CutShort (stateOf [0x8C#8]) [0x8C#8, 0x1E#8, 0x00#8, 0x10#8] ∧
    AtBytes (stateOf [0x8E#8, 0x1E#8, 0x00#8, 0x10#8]) [0x8E#8, 0x1E#8, 0x00#8, 0x10#8] ∧
    CutShort (stateOf [0x8E#8, 0x1E#8, 0x00#8]) [0x8E#8, 0x1E#8, 0x00#8, 0x10#8] :=
  ⟨by decide, atBytes_stateOf _, cutShort_stateOf 1 rfl (by decide) (by decide), atBytes_stateOf _,
    cutShort_stateOf 3 rfl (by decide) (by decide)⟩

theorem witness_MovImmediateToRegisterRule :
    immFits (wideW 0#1) 255#16 = true ∧ AtBytes (stateOf [0xB0#8, 0xFF#8]) [0xB0#8, 0xFF#8] ∧
    immFits (wideW 1#1) 65535#16 = true ∧ CutShort (stateOf [0xB8#8, 0xFF#8]) [0xB8#8, 0xFF#8, 0xFF#8] :=
  ⟨by decide, atBytes_stateOf _, by decide, cutShort_stateOf 2 rfl (by decide) (by decide)⟩

theorem witness_MovImmediateToRegisterMemoryRule :
    (RmField.mk 0b11#2 0b011#3 0#16).wf = true ∧ immFits (wideW 0#1) 7#16 = true ∧
    AtBytes (stateOf [0xC6#8, 0xC3#8, 0x07#8]) [0xC6#8, 0xC3#8, 0x07#8] ∧
    CutShort (stateOf [0xC6#8, 0xC3#8]) [0xC6#8, 0xC3#8, 0x07#8] :=
  ⟨by decide, by decide, atBytes_stateOf _, cutShort_stateOf 2 rfl (by decide) (by decide)⟩

theorem witness_MovAccumulatorRules :
    AtBytes (stateOf [0xA0#8, 0xFF#8, 0xFF#8]) [0xA0#8, 0xFF#8, 0xFF#8] ∧
    CutShort (stateOf [0xA1#8, 0x10#8]) [0xA1#8, 0x10#8, 0x00#8] ∧
    AtBytes (stateOf [0xA3#8, 0xFA#8, 0x09#8]) [0xA3#8, 0xFA#8, 0x09#8] ∧
    CutShort (stateOf [0xA2#8]) [0xA2#8, 0x0F#8, 0x00#8] :=
  ⟨atBytes_stateOf _, cutShort_stateOf 2 rfl (by decide) (by decide), atBytes_stateOf _,
    cutShort_stateOf 1 rfl (by decide) (by decide)⟩

theorem witness_ArithmeticRegisterMemoryRules :
    (RmField.mk 0b10#2 0b111#3 1000#16).wf = true ∧
    AtBytes (stateOf [0x03#8, 0x87#8, 0xE8#8, 0x03#8]) [0x03#8, 0x87#8, 0xE8#8, 0x03#8] ∧
    CutShort (stateOf [0x03#8]) [0x03#8, 0x87#8, 0xE8#8, 0x03#8] ∧
    AtBytes (stateOf [0x2B#8, 0x87#8, 0xE8#8, 0x03#8]) [0x2B#8, 0x87#8, 0xE8#8, 0x03#8] ∧
    CutShort (stateOf [0x2B#8, 0x87#8]) [0x2B#8, 0x87#8, 0xE8#8, 0x03#8] ∧
    AtBytes (stateOf [0x3B#8, 0x87#8, 0xE8#8, 0x03#8]) [0x3B#8, 0x87#8, 0xE8#8, 0x03#8] ∧
    CutShort (stateOf [0x3B#8, 0x87#8, 0xE8#8]) [0x3B#8, 0x87#8, 0xE8#8, 0x03#8] :=
  ⟨by decide, atBytes_stateOf _, cutShort_stateOf 1 rfl (by decide) (by decide), atBytes_stateOf _,
    cutShort_stateOf 2 rfl (by decide) (by decide), atBytes_stateOf _, cutShort_stateOf 3 rfl (by decide) (by decide)⟩

theorem witness_ArithmeticImmediateRules :
    (RmField.mk 0b11#2 0b000#3 0#16).wf = true ∧ immFits (wideSW 1#1 1#1) 255#16 = true ∧
    AtBytes (stateOf [0x83#8, 0xC0#8, 0xFF#8]) [0x83#8, 0xC0#8, 0xFF#8] ∧
    CutShort (stateOf [0x83#8, 0xC0#8]) [0x83#8, 0xC0#8, 0xFF#8] ∧
    AtBytes (stateOf [0x83#8, 0xE8#8, 0xFF#8]) [0x83#8, 0xE8#8, 0xFF#8] ∧
    CutShort (stateOf [0x83#8]) [0x83#8, 0xE8#8, 0xFF#8] ∧
    AtBytes (stateOf [0x83#8, 0xF8#8, 0xFF#8]) [0x83#8, 0xF8#8, 0xFF#8] ∧
    CutShort (stateOf [0x83#8, 0xF8#8]) [0x83#8, 0xF8#8, 0xFF#8] :=
  ⟨by decide, by decide, atBytes_stateOf _, cutShort_stateOf 2 rfl (by decide) (by decide), atBytes_stateOf _,
    cutShort_stateOf 1 rfl (by decide) (by decide), atBytes_stateOf _, cutShort_stateOf 2 rfl (by decide) (by decide)⟩

theorem witness_ArithmeticAccumulatorRules :
    immFits (wideW 1#1) 65535#16 = true ∧
    AtBytes (stateOf [0x05#8, 0xFF#8, 0xFF#8]) [0x05#8, 0xFF#8, 0xFF#8] ∧
    CutShort (stateOf [0x05#8, 0xFF#8]) [0x05#8, 0xFF#8, 0xFF#8] ∧
    AtBytes (stateOf [0x2D#8, 0xFF#8, 0xFF#8]) [0x2D#8, 0xFF#8, 0xFF#8] ∧
    CutShort (stateOf [0x2D#8]) [0x2D#8, 0xFF#8, 0xFF#8] ∧
    AtBytes (stateOf [0x3D#8, 0xFF#8, 0xFF#8]) [0x3D#8, 0xFF#8, 0xFF#8] ∧
    CutShort (stateOf [0x3D#8, 0xFF#8]) [0x3D#8, 0xFF#8, 0xFF#8] :=
  ⟨by decide, atBytes_stateOf _, cutShort_stateOf 2 rfl (by decide) (by decide), atBytes_stateOf _,
    cutShort_stateOf 1 rfl (by decide) (by decide), atBytes_stateOf _, cutShort_stateOf 2 rfl (by decide) (by decide)⟩

theorem witness_ConditionalJumpRulesLow :
    (∀ b ∈ [0x70#8, 0x71#8, 0x72#8, 0x73#8, 0x74#8, 0x75#8, 0x76#8, 0x77#8],
      AtBytes (stateOf [b, 0x80#8]) [b, 0x80#8] ∧ CutShort (stateOf [b]) [b, 0x80#8]) :=
  fun b _ => ⟨atBytes_stateOf _, cutShort_stateOf 1 rfl (by decide) (by simp)⟩

theorem witness_ConditionalJumpRulesHigh :
    (∀ b ∈ [0x78#8, 0x79#8, 0x7A#8, 0x7B#8, 0x7C#8, 0x7D#8, 0x7E#8, 0x7F#8],
      AtBytes (stateOf [b, 0x7F#8]) [b, 0x7F#8] ∧ CutShort (stateOf [b]) [b, 0x7F#8]) :=
  fun b _ => ⟨atBytes_stateOf _, cutShort_stateOf 1 rfl (by decide) (by simp)⟩

theorem witness_LoopFormRules :
    (∀ b ∈ [0xE0#8, 0xE1#8, 0xE2#8, 0xE3#8],
      AtBytes (stateOf [b, 0x00#8]) [b, 0x00#8] ∧ CutShort (stateOf [b]) [b, 0x00#8]) :=
  fun b _ => ⟨atBytes_stateOf _, cutShort_stateOf 1 rfl (by decide) (by simp)⟩

theorem witness_StepRunsDecodedInstruction :
    (Instr.jz 0xFC#8).wf = true ∧ AtBytes (stateOf [0x74#8, 0xFC#8]) (encode (.jz 0xFC#8)) ∧
    (stateOf [0x74#8, 0xFC#8]).phase = .run ∧ (stateOf [0x74#8, 0xFC#8]).off ≠ (stateOf [0x74#8, 0xFC#8]).len ∧
    decodeInstr (stateOf [0x74#8, 0xFC#8]).cursor =
      .ok (.jz 0xFC#8, (stateOf [0x74#8, 0xFC#8]).cursor.advance 2) :=
  ⟨rfl, atBytes_stateOf _, rfl, by decide, rfl⟩

/-- The two hypotheses of the driver loop, at the end of the stream and before it. -/
theorem witness_StepFollowsDriverLoop :
    ((stateOf []).phase = .run ∧ (stateOf []).off = (stateOf []).len) ∧
    (stateOf [0x90#8]).phase = .run ∧ (stateOf [0x90#8]).off ≠ (stateOf [0x90#8]).len := by decide

theorem witness_TerminalPhasesLeftByLoadAlone :
    ({ stateOf [0x90#8] with phase := .error } : State).phase = .error ∧
    ({ stateOf [] with phase := .done } : State).phase = .done ∧
    lenAllowed { defaultParams with maxLen := some 2 } 2 = true := by decide

theorem witness_StepAnswersExactlyInRun :
    (stateOf [0x90#8]).phase = .run ∧ ∃ t, step (stateOf [0x90#8]) = .next t := ⟨rfl, _, rfl⟩

/-- A step that ends in ERROR; also a witness for the payloads. -/
theorem witness_ErrorEntryWritesPhaseAndErrAlone :
    ∃ t, step (stateOf [0x8B#8, 0x46#8]) = .next t ∧ t.phase = .error := ⟨_, rfl, rfl⟩

theorem witness_RaisedErrorPayloads :
    (stateOf [0x8B#8, 0x46#8]).off ≤ (stateOf [0x8B#8, 0x46#8]).len ∧
    ∃ t, step (stateOf [0x8B#8, 0x46#8]) = .next t ∧ t.phase = .error := ⟨by decide, _, rfl, rfl⟩

theorem witness_IllegalByteRaisesUnsupportedOpcode :
    (stateOf [0x06#8]).phase = .run ∧ (stateOf [0x06#8]).off < (stateOf [0x06#8]).len ∧
    ¬ acceptedByte ((stateOf [0x06#8]).buf.read 0) ∧ acceptedByte ((stateOf [0x05#8, 0x00#8]).buf.read 0) := by
  decide

theorem witness_GroupWithoutOperationRaisesInvalidOperation :
    (RmField.mk 0b00#2 0b110#3 16#16).wf = true ∧
    AtBytes (stateOf [0x83#8, 0x0E#8, 0x10#8, 0x00#8])
      ([0b100000#6 ++ 1#1 ++ 1#1, modRegRm 0b00#2 0b001#3 0b110#3] ++ dispBytes ⟨0b00#2, 0b110#3, 16#16⟩) ∧
    (stateOf [0x83#8, 0xC8#8]).off ≤ (stateOf [0x83#8, 0xC8#8]).len ∧
    ∃ t, step (stateOf [0x83#8, 0xC8#8]) = .next t ∧ t.phase = .error ∧
      t.err = some (.invalidOperation 0 0x83#8 0b001#3) :=
  ⟨by decide, atBytes_stateOf _, by decide, _, rfl, rfl, rfl⟩

/-- Each case of the order of checks. -/
theorem witness_FirstFailingCheckIsReported :
    ¬ acceptedByte ((stateOf [0x90#8]).buf.read 0) ∧ acceptedByte 0x83#8 ∧ acceptedByte 0x81#8 ∧
    (hasModRegRm 0x83#8 = true ∧ (stateOf [0x83#8]).len < 0 + 2) ∧
    ((stateOf [0x83#8, 0x4E#8]).len < 0 + 2 + dispLen (modOf 0x4E#8) (rmOf 0x4E#8)) ∧
    (0 + (2 + dispLen (modOf 0xC8#8) (rmOf 0xC8#8)) ≤ (stateOf [0x83#8, 0xC8#8]).len ∧ regOf 0xC8#8 = 0b001#3) ∧
    ((stateOf [0x81#8, 0xC3#8]).len < 0 + 2 + tailLen 0x81#8 ∧ regOf 0xC3#8 = 0b000#3) ∧
    0 + 2 + tailLen 0x81#8 ≤ (stateOf [0x81#8, 0xC3#8, 0xE8#8, 0x03#8]).len :=
  ⟨by decide, by decide, by decide, by decide⟩

theorem witness_TruncatedInstructionRaisesUnderrun :
    (Instr.addRmImm 0#1 1#1 ⟨0b11#2, 0b011#3, 0#16⟩ 1000#16).wf = true ∧
    CutShort (stateOf [0x81#8, 0xC3#8, 0xE8#8]) (encode (.addRmImm 0#1 1#1 ⟨0b11#2, 0b011#3, 0#16⟩ 1000#16)) :=
  ⟨by decide, cutShort_stateOf 3 rfl (by decide) (by decide)⟩

theorem witness_StepKeepsBufferAndParameters : ∃ t, step (stateOf [0x89#8, 0xD9#8]) = .next t := ⟨_, rfl⟩

theorem witness_LineShape : paramsOk (stateOf []).params = true := by decide

/-- Two states that differ in the text, the count and the error alone. -/
theorem witness_StepIgnoresEarlierOutput :
    let s := stateOf [0x89#8, 0xD9#8]
    let s' : State := { s with text := "x", count := 7, err := some (.invalidAddressingMode 3) }
    s.params = s'.params ∧ s.buf = s'.buf ∧ s.len = s'.len ∧ s.off = s'.off ∧ s.phase = s'.phase ∧
      ∃ t, step s = .next t := ⟨rfl, rfl, rfl, rfl, rfl, _, rfl⟩

/-- Two buffers of different length with the same first instruction. -/
theorem witness_StepDependsOnItsOwnBytes :
    let s := stateOf [0x89#8, 0xD9#8]
    let s' := stateOf [0x89#8, 0xD9#8, 0x90#8]
    s.params = s'.params ∧ s.off = s'.off ∧ s'.phase = .run ∧
      ∃ t, step s = .next t ∧ t.phase = .run ∧ t.off ≤ s'.len ∧
        ∀ a, s.off ≤ a → a < t.off → s'.buf.read a = s.buf.read a :=
  ⟨rfl, rfl, rfl, _, rfl, rfl, by decide, fun a _ h => by
    have h2 : a < 2 := h
    interval_cases a <;> rfl⟩

theorem witness_LoadSetsEveryField :
    lenAllowed ({ State.reset with params := { defaultParams with maxLen := some 2 } } : State).params
      [0x89#8, 0xD9#8].length = true := by decide

/-- A buffer one byte longer than the bound, one of exactly the bound, and an instance with no bound. -/
theorem witness_LoadRefusesTooLongBuffer :
    ({ State.reset with params := { defaultParams with maxLen := some 1 } } : State).params.maxLen = some 1 ∧
    1 < [0x89#8, 0xD9#8].length ∧ [0x89#8].length ≤ 1 ∧ State.reset.params.maxLen = none := by decide

/-- The invariant in each of the three phases. -/
theorem witness_ResultOfRun :
    Inv (stateOf [0x89#8, 0xD9#8]) ∧ Inv { stateOf [] with phase := .done } ∧
    Inv { stateOf [0x90#8] with phase := .error, err := some (.unsupportedOpcode 0 0x90#8) } :=
  ⟨inv_run, inv_done, inv_error⟩

theorem witness_StatusCodes :
    Inv { stateOf [0x90#8] with phase := .error, err := some (.unsupportedOpcode 0 0x90#8) } := inv_error

theorem witness_InvariantAfterLoad :
    paramsOk State.reset.params = true ∧ ∃ t, load [0x89#8, 0xD9#8] State.reset = .next t :=
  ⟨by decide, _, rfl⟩

theorem witness_InvariantKeptByStep :
    Inv (stateOf [0x89#8, 0xD9#8]) ∧ ∃ t, step (stateOf [0x89#8, 0xD9#8]) = .next t := ⟨inv_run, _, rfl⟩

theorem witness_EveryRunTerminates :
    (stateOf [0x89#8, 0xD9#8]).phase = .run ∧
    (stateOf [0x89#8, 0xD9#8]).off ≤ (stateOf [0x89#8, 0xD9#8]).len := by decide

theorem witness_ExactConsumption :
    (∀ i ∈ [Instr.movRegImm 1#1 0b001#3 12#16, .jz 0xFC#8], i.wf = true) ∧
    ∃ t, load ([Instr.movRegImm 1#1 0b001#3 12#16, .jz 0xFC#8].flatMap encode) State.reset = .next t :=
  ⟨by decide, _, rfl⟩

end Sys2Proof.Tests
end

