-- ==== Sys2Proof/Proofs/StepFrame.lean ====
section
/-! What a step can write, as an update of the old state, and the frame that follows from it. -/

namespace Sys2Proof.Machine

/-- Inversion of `exec`: the state a meaning answers is a commit of the instruction's own record. -/
theorem exec_next_commit {i : Instr} {s t : State} (h : exec i s = .next t) :
    ∃ r l, t = commit r l s ∧ r.start = s.off ∧ r.len = i.length := by
  obtain ⟨r, l, hexec, hstart, hlen⟩ := exec_commit i s
  rw [hexec] at h
  cases h
  exact ⟨r, l, rfl, hstart, hlen⟩

/-- The three updates a step can make: the end of the stream, one committed record, one raised error. -/
theorem step_next_update {s t : State} (h : step s = .next t) :
    t = finish s ∨ (∃ r l, t = commit r l s) ∨ ∃ e, t = raise e s := by
  obtain ⟨-, ⟨-, hfinish⟩ | ⟨-, i, -, -, hexec⟩ | ⟨-, e, -, hraise⟩⟩ := step_cases h
  · exact .inl hfinish
  · obtain ⟨r, l, hcommit, -, -⟩ := exec_next_commit hexec
    exact .inr (.inl ⟨r, l, hcommit⟩)
  · exact .inr (.inr ⟨e, hraise⟩)

/-- The fields no step writes (R14, R16, R165). -/
theorem step_frame {s t : State} (h : step s = .next t) :
    t.buf = s.buf ∧ t.len = s.len ∧ t.params = s.params := by
  obtain rfl | ⟨r, l, rfl⟩ | ⟨e, rfl⟩ := step_next_update h
  · exact ⟨finish_buf s, finish_len s, finish_params s⟩
  · exact ⟨commit_buf s r l, commit_len s r l, commit_params s r l⟩
  · exact ⟨raise_buf s e, raise_len s e, raise_params s e⟩

/-- R15: a commit alone moves the offset, and it adds the record's length. -/
theorem step_off_le {s t : State} (h : step s = .next t) : s.off ≤ t.off := by
  obtain rfl | ⟨r, l, rfl⟩ | ⟨e, rfl⟩ := step_next_update h
  · exact (finish_off s).ge
  · rw [commit_off]
    exact Nat.le_add_right s.off r.len
  · exact (raise_off s e).ge

/-- Settles O36, from the frame of a step and the monotony of the offset. -/
theorem stepKeepsBufferAndParameters : Obligations.StepKeepsBufferAndParameters := by
  intro s t h
  obtain ⟨hbuf, hlen, hparams⟩ := step_frame h
  exact ⟨hbuf, hlen, hparams, step_off_le h, fun a => by rw [hbuf]⟩

end Sys2Proof.Machine
end

