-- ==== Sys2Proof/Proofs/ReadPrimitives.lean ====
section
/-! What the read primitives answer as numbers, and the Underrun of a read that passes the end. -/

namespace Sys2Proof.Machine

variable {c : Cursor} {a n : Nat} {exact : Bool}

/-- R33: a byte's signed value is its number below 128, and its number less 256 from there on. -/
theorem asSigned8_eq (v : Byte) :
    asSigned8 v = if v.toNat < 128 then (v.toNat : Int) else v.toNat - 256 := by
  unfold asSigned8
  rw [BitVec.toInt_eq_toNat_cond]
  split <;> split <;> omega

/-- R29, R30: a two-byte read inside the buffer answers the little-endian word. -/
theorem Cursor.memRead16_ok (h : a + 2 ≤ c.len) :
    c.memRead16 a = .ok (le16 (c.buf.read a) (c.buf.read (a + 1))) :=
  if_neg (by omega)

theorem Cursor.memRead16_underrun (h : a + 2 > c.len) : c.memRead16 a = .error (c.underrunAt a 2) :=
  if_pos h

/-- R31: a peek that is not exact, or that fits, answers the bytes that remain, at most `n`. -/
theorem Cursor.peek_ok (h : exact = true → c.off + n ≤ c.len) :
    c.peek n exact = .ok (c.buf.slice c.off (min (c.off + n) c.len - c.off)) :=
  if_neg fun ⟨hexact, hpast⟩ => absurd (h hexact) (by omega)

theorem Cursor.peek_exact_underrun (h : c.off + n > c.len) :
    c.peek n true = .error (c.underrunAt c.off n) :=
  if_pos ⟨rfl, h⟩

theorem Cursor.readU8_ok (h : c.off < c.len) : c.readU8 = .ok (c.buf.read c.off, c.advance 1) :=
  Cursor.readU8_eq_ok.2 ⟨h, rfl, rfl⟩

theorem Cursor.readU8_underrun (h : c.len < c.off + 1) : c.readU8 = .error (c.underrunAt c.off 1) :=
  Cursor.readU8_eq_error.2 ⟨h, rfl⟩

theorem Cursor.readU16_ok (h : c.off + 2 ≤ c.len) :
    c.readU16 = .ok (le16 (c.buf.read c.off) (c.buf.read (c.off + 1)), c.advance 2) :=
  Cursor.readU16_eq_ok.2 ⟨h, rfl, rfl⟩

theorem Cursor.readU16_underrun (h : c.len < c.off + 2) : c.readU16 = .error (c.underrunAt c.off 2) :=
  Cursor.readU16_eq_error.2 ⟨h, rfl⟩

/-- R35: the wide form is `readU16`. -/
theorem Cursor.readU16OrU8_true : c.readU16OrU8 true = c.readU16 := rfl

/-- R35: the narrow form is `readU8`, its byte zero-extended. -/
theorem Cursor.readU16OrU8_false_ok (h : c.off < c.len) :
    c.readU16OrU8 false = .ok (zext16 (c.buf.read c.off), c.advance 1) := by
  simp [Cursor.readU16OrU8, Cursor.readU8_ok h]

theorem Cursor.readU16OrU8_false_underrun (h : c.len < c.off + 1) :
    c.readU16OrU8 false = .error (c.underrunAt c.off 1) := by
  simp [Cursor.readU16OrU8, Cursor.readU8_underrun h]

/-- Settles O7, from one lemma per read primitive and outcome. -/
theorem readPrimitives : Obligations.ReadPrimitives := by
  intro c
  refine ⟨fun a => rfl, fun a => ⟨Cursor.memRead16_underrun, fun h => ?word⟩,
    fun n => ⟨Cursor.peek_exact_underrun, fun exact h => ?peek⟩, fun h => ?byteRead, fun h => ?wordRead,
    fun h => ?byteUnderrun, fun h => ?wordUnderrun⟩
  case word => exact ⟨_, Cursor.memRead16_ok h, le16_toNat _ _⟩
  case peek =>
    refine ⟨_, Cursor.peek_ok h, Memory.length_slice, fun k hk => ?_⟩
    rw [Memory.length_slice] at hk
    exact Memory.getElem?_slice hk
  case byteRead =>
    exact ⟨Cursor.readU8_ok h, ⟨_, Cursor.readI8_eq.trans (Cursor.readU8_ok h), asSigned8_eq _⟩,
      _, Cursor.readU16OrU8_false_ok h, zext16_toNat _⟩
  case wordRead => exact ⟨⟨_, Cursor.readU16_ok h, le16_toNat _ _⟩, Cursor.readU16OrU8_true⟩
  case byteUnderrun =>
    exact ⟨Cursor.readU8_underrun h, Cursor.readI8_eq.trans (Cursor.readU8_underrun h),
      Cursor.readU16OrU8_false_underrun h⟩
  case wordUnderrun =>
    exact ⟨Cursor.readU16_underrun h, Cursor.readU16OrU8_true.trans (Cursor.readU16_underrun h)⟩

end Sys2Proof.Machine
end

