-- ==== Sys2Proof/Proofs/CommonFields.lean ====
section
/-! The common field decoder (R57 to R61): what it answers for each shape of the displacement, and the
Underrun of the read that fails. -/

namespace Sys2Proof.Machine

variable {c c' : Cursor} {mod : ModCode} {rm : RegCode} {disp : Word} {e : Err}

/-- R58: sign extension keeps the signed value. -/
theorem sext16_toInt (v : Byte) : (sext16 v).toInt = v.toInt :=
  BitVec.toInt_signExtend_of_le (by decide)

/-- R58: for mod = 01 the displacement is the next byte, sign-extended. -/
theorem decodeDisp_byte_ok (h : c.off < c.len) :
    decodeDisp 0b01#2 rm c = .ok (sext16 (c.buf.read c.off), c.advance 1) := by
  simp [decodeDisp, Cursor.readI8_eq, Cursor.readU8_ok h]

theorem decodeDisp_byte_underrun (h : c.len < c.off + 1) :
    decodeDisp 0b01#2 rm c = .error (c.underrunAt c.off 1) := by
  simp [decodeDisp, Cursor.readI8_eq, Cursor.readU8_underrun h]

/-- R59, R60: for mod = 10 and for the direct address the displacement is the next word. -/
theorem decodeDisp_word (h : mod = 0b10#2 ∨ (mod = 0b00#2 ∧ rm = 0b110#3)) :
    decodeDisp mod rm c = c.readU16 := by
  obtain rfl | ⟨rfl, rfl⟩ := h <;> rfl

/-- R61: the other shapes read nothing, and their displacement is zero. -/
theorem decodeDisp_absent (h : mod = 0b11#2 ∨ (mod = 0b00#2 ∧ rm ≠ 0b110#3)) :
    decodeDisp mod rm c = .ok (0#16, c) := by
  obtain rfl | ⟨rfl, hrm⟩ := h
  · rfl
  · simp [decodeDisp, hrm]

theorem decodeCommon_underrun (h : c.len < c.off + 1) :
    decodeCommon c = .error (c.underrunAt c.off 1) := by
  simp [decodeCommon, Cursor.readU8_underrun h]

/-- R57: with the mod-reg-rm byte there, its fields and the displacement read after it. -/
theorem decodeCommon_ok_of_disp (h : c.off < c.len)
    (hdisp : decodeDisp (modOf (c.buf.read c.off)) (rmOf (c.buf.read c.off)) (c.advance 1) = .ok (disp, c')) :
    decodeCommon c = .ok (⟨modOf (c.buf.read c.off), regOf (c.buf.read c.off),
      rmOf (c.buf.read c.off), disp⟩, c') := by
  simp [decodeCommon, Cursor.readU8_ok h, hdisp]

/-- R36: an error of the displacement's read is the decoder's. -/
theorem decodeCommon_error_of_disp (h : c.off < c.len)
    (hdisp : decodeDisp (modOf (c.buf.read c.off)) (rmOf (c.buf.read c.off)) (c.advance 1) = .error e) :
    decodeCommon c = .error e := by
  simp [decodeCommon, Cursor.readU8_ok h, hdisp]

/-- Settles O8, from the displacement's read in each of its shapes. -/
theorem commonFieldsDecoded : Obligations.CommonFieldsDecoded := by
  intro c
  refine ⟨decodeCommon_underrun, fun h hmod => ⟨fun hfits => ?byte, fun hcut => ?byteCut⟩,
    fun h hshape => ⟨fun hfits => ?word, fun hcut => ?wordCut⟩,
    fun h hshape => decodeCommon_ok_of_disp h (decodeDisp_absent hshape)⟩
  case byte =>
    have hdisp := decodeDisp_byte_ok (c := c.advance 1) (rm := rmOf (c.buf.read c.off)) hfits
    exact ⟨_, decodeCommon_ok_of_disp h (hmod ▸ hdisp), sext16_toInt _⟩
  case byteCut =>
    have hdisp := decodeDisp_byte_underrun (c := c.advance 1) (rm := rmOf (c.buf.read c.off)) hcut
    exact decodeCommon_error_of_disp h (hmod ▸ hdisp)
  case word =>
    have hread : (c.advance 1).readU16 = _ := Cursor.readU16_ok (by simp; omega)
    exact ⟨_, decodeCommon_ok_of_disp h ((decodeDisp_word hshape).trans hread), le16_toNat _ _⟩
  case wordCut =>
    have hread : (c.advance 1).readU16 = _ := Cursor.readU16_underrun (by simp; omega)
    exact decodeCommon_error_of_disp h ((decodeDisp_word hshape).trans hread)

end Sys2Proof.Machine
end

