-- ==== Sys2Proof/Proofs/Classifier.lean ====
section
/-! The classifier as ranges of first bytes (R53 to R55). -/

namespace Sys2Proof

/-- A pattern on the top `n` bits of a byte, as a quotient of the byte's number. -/
theorem extractLsb'_top_eq_iff {k n : Nat} (h : k + n = 8) (b : Byte) (p : BitVec n) :
    b.extractLsb' k n = p ↔ b.toNat / 2 ^ k = p.toNat := by
  have hlt : b.toNat / 2 ^ k < 2 ^ n :=
    Nat.div_lt_of_lt_mul (by rw [← Nat.pow_add, h]; exact b.isLt)
  rw [BitVec.toNat_eq, BitVec.extractLsb'_toNat, Nat.shiftRight_eq_div_pow, Nat.mod_eq_of_lt hlt]

/-- Settles O2: in each branch of the classifier the patterns tested bound the byte's number, and the
class answered tells which of the 14 ranges it must be in. -/
theorem classifierAnswersByRange : Obligations.ClassifierAnswersByRange := by
  intro b
  fun_cases classify b
  all_goals
    simp only [extractLsb'_top_eq_iff, BitVec.toNat_ofNat, Nat.reduceMod, Nat.reducePow] at *
    simp only [Option.some.injEq, OpClass.move.injEq, OpClass.arithRegMemReg.injEq,
      OpClass.arithImmToAcc.injEq, reduceCtorEq, true_iff, false_iff]
    bv_omega

end Sys2Proof
end

