-- ==== Sys2Proof/Proofs/ReadsAs.lean ====
section
/-! A decoder as a script of reads: on all of its bytes it answers a value and moves past them, and on a
buffer that ends inside them it raises the Underrun of the read that fails. Scripts compose by `bind`, and
a rule of one instruction follows from the script of its decoder. -/

namespace Sys2Proof.Machine

variable {α β : Type} {c : Cursor} {reads more : List Nat} {e : Err} {n : Nat} {a : α} {b : β}
  {f : Cursor → Except Err (α × Cursor)} {g : α × Cursor → Except Err (β × Cursor)} {bs cs : List Byte}

/-- `e` is the Underrun of the first of the reads with the sizes `reads` that passes the end of the buffer
(R149), counted from the cursor. -/
def Cursor.FailsRead (c : Cursor) (reads : List Nat) (e : Err) : Prop :=
  ∃ k n, reads[k]? = some n ∧ c.off + (reads.take k).sum ≤ c.len ∧
    c.len < c.off + (reads.take k).sum + n ∧ e = c.underrunAt (c.off + (reads.take k).sum) n

theorem isUnderrun_iff_failsRead {s : State} : IsUnderrun s reads e ↔ s.cursor.FailsRead reads e := Iff.rfl

theorem Cursor.failsRead_head (hoff : c.off ≤ c.len) (hpast : c.len < c.off + n) :
    c.FailsRead (n :: reads) (c.underrunAt c.off n) :=
  ⟨0, n, rfl, hoff, hpast, rfl⟩

theorem Cursor.FailsRead.append_left (h : c.FailsRead reads e) : c.FailsRead (reads ++ more) e := by
  obtain ⟨k, n, hk, hread⟩ := h
  have hlt : k < reads.length := (List.getElem?_eq_some_iff.1 hk).1
  refine ⟨k, n, by rw [List.getElem?_append_left hlt, hk], ?_⟩
  rwa [List.take_append_of_le_length hlt.le]

theorem Cursor.FailsRead.append_right (h : (c.advance reads.sum).FailsRead more e) :
    c.FailsRead (reads ++ more) e := by
  obtain ⟨k, n, hk, hread⟩ := h
  refine ⟨reads.length + k, n, ?_, ?_⟩
  · rw [List.getElem?_append_right (Nat.le_add_right _ _), Nat.add_sub_cancel_left, hk]
  · rw [List.take_length_add_append, List.sum_append, ← Nat.add_assoc]
    exact hread

/-- `f` reads the bytes `bs` in reads of the sizes `reads`, in stream order, and answers `a`. -/
structure ReadsAs (f : Cursor → Except Err (α × Cursor)) (bs : List Byte) (reads : List Nat) (a : α) :
    Prop where
  sum_reads : reads.sum = bs.length
  holds : ∀ c : Cursor, c.Holds bs → f c = .ok (a, c.advance bs.length)
  cut : ∀ c : Cursor, c.Cut bs → ∃ e, c.FailsRead reads e ∧ f c = .error e

/-- A script of one read: it answers on its bytes, and on cut bytes it raises the Underrun of their length. -/
theorem ReadsAs.of_single (holds : ∀ c : Cursor, c.Holds bs → f c = .ok (a, c.advance bs.length))
    (cut : ∀ c : Cursor, c.Cut bs → f c = .error (c.underrunAt c.off bs.length)) :
    ReadsAs f bs [bs.length] a where
  sum_reads := List.sum_singleton
  holds := holds
  cut c hcut := ⟨_, Cursor.failsRead_head hcut.1 hcut.2.1, cut c hcut⟩

theorem ReadsAs.pure : ReadsAs (fun c => .ok (a, c)) [] [] a where
  sum_reads := rfl
  holds _ _ := rfl
  cut _ hcut := absurd hcut.2.1 (Nat.not_lt.2 hcut.1)

/-- Scripts one after the other: the failing read is in the first, or the first is whole and it is in the
second. -/
theorem ReadsAs.bind (hf : ReadsAs f bs reads a) (hg : ReadsAs (fun c => g (a, c)) cs more b) :
    ReadsAs (fun c => f c >>= g) (bs ++ cs) (reads ++ more) b where
  sum_reads := by rw [List.sum_append, hf.sum_reads, hg.sum_reads, List.length_append]
  holds c h := by
    obtain ⟨hfirst, hsecond⟩ := Cursor.holds_append.1 h
    rw [hf.holds c hfirst, Except.ok_bind_ok, hg.holds _ hsecond, Cursor.advance_advance,
      List.length_append]
  cut c h := by
    obtain hfirst | ⟨hfirst, hsecond⟩ := Cursor.cut_append h
    · obtain ⟨e, hfails, he⟩ := hf.cut c hfirst
      exact ⟨e, hfails.append_left, by rw [he, Except.error_bind_error]⟩
    · obtain ⟨e, hfails, he⟩ := hg.cut _ hsecond
      rw [← hf.sum_reads] at hfails
      exact ⟨e, hfails.append_right, by rw [hf.holds c hfirst, Except.ok_bind_ok, he]⟩

/-- What follows a script may compute on its answer without reading. -/
theorem ReadsAs.bind_ok (hf : ReadsAs f bs reads a) (hg : ∀ c, g (a, c) = .ok (b, c)) :
    ReadsAs (fun c => f c >>= g) bs reads b := by
  have hpure : ReadsAs (fun c => g (a, c)) [] [] b := by simpa only [hg] using ReadsAs.pure
  simpa using hf.bind hpure

theorem readU8_readsAs (b : Byte) : ReadsAs Cursor.readU8 [b] [1] b :=
  .of_single (fun _ => Cursor.readU8_holds) fun _ => Cursor.readU8_cut

theorem readU16_readsAs (v : Word) : ReadsAs Cursor.readU16 [loByte v, hiByte v] [2] v :=
  .of_single (fun c h => by rw [Cursor.readU16_holds h, le16_lo_hi]; rfl) fun _ => Cursor.readU16_cut

/-- R63, R64: an immediate is one read of its width. -/
theorem readU16OrU8_readsAs {wide : Bool} {v : Word} (hv : immFits wide v = true) :
    ReadsAs (fun c => c.readU16OrU8 wide) (immBytes wide v) [immLen wide] v := by
  rw [← length_immBytes wide v]
  refine .of_single (fun c h => ?_) fun c h => ?_
  · rw [← List.append_nil (immBytes wide v)] at h
    rw [Cursor.readU16OrU8_holds hv h, length_immBytes]
  · rw [Cursor.readU16OrU8_cut h, length_immBytes]

/-- R58 to R61: the displacement is one read of its length, or none. -/
theorem decodeDisp_readsAs {x : RmField} (hx : x.wf = true) :
    ReadsAs (decodeDisp x.mod x.rm) (dispBytes x) (dispReads x) x.disp where
  sum_reads := by
    rw [length_dispBytes, dispReads]
    split <;> simp [*]
  holds c h := by
    rw [← List.append_nil (dispBytes x)] at h
    rw [decodeDisp_holds hx h, length_dispBytes]
  cut c h := by
    obtain ⟨hpos, herr⟩ := decodeDisp_cut h
    have hpast := h.2.1
    rw [length_dispBytes] at hpast
    rw [dispReads, if_neg (by omega)]
    exact ⟨_, Cursor.failsRead_head h.1 hpast, herr⟩

/-- R57: the common fields are the mod-reg-rm byte and the displacement. -/
theorem decodeCommon_readsAs {x : RmField} (reg : RegCode) (hx : x.wf = true) :
    ReadsAs decodeCommon (modRegRm x.mod reg x.rm :: dispBytes x) (1 :: dispReads x) (x.common reg) := by
  refine (readU8_readsAs (modRegRm x.mod reg x.rm)).bind ?_
  simp only [modOf_modRegRm, regOf_modRegRm, rmOf_modRegRm]
  exact (decodeDisp_readsAs hx).bind_ok fun _ => rfl

/-- R50, R139: the script of the family that the first byte selects is the decoder's. -/
theorem decodeInstr_readsAs {o : Byte} {k : OpClass} {i : Instr} (hclass : classify o = some k)
    (h : ReadsAs (decodeFamily k) (o :: bs) (1 :: reads) i) :
    ReadsAs decodeInstr (o :: bs) (1 :: reads) i where
  sum_reads := h.sum_reads
  holds c hc := by
    obtain ⟨hlt, hread, -⟩ := Cursor.holds_cons.1 hc
    rw [decodeInstr_eq hlt, hread, hclass]
    exact h.holds c hc
  cut c hc := by
    obtain hend | ⟨hlt, hread, -⟩ := Cursor.cut_cons hc
    · refine ⟨_, Cursor.failsRead_head hc.1 (by omega), ?_⟩
      rw [decodeInstr, Cursor.peek_exact_underrun (by omega)]
      rfl
    · rw [decodeInstr_eq hlt, hread, hclass]
      exact h.cut c hc

/-- A rule of one instruction: its meaning, and the decoder's script of its bytes. -/
theorem ReadsAs.ruleHolds {o : Byte} {i : Instr} {t : State → State}
    (h : ReadsAs decodeInstr (o :: bs) reads i) (hexec : ∀ s, exec i s = .next (t s)) :
    RuleHolds (o :: bs) reads i t := by
  refine fun s => ⟨hexec s, fun hat => ?_, fun hcut => ?_⟩
  · have hholds : s.cursor.Holds (o :: bs) := ⟨hat.inside, hat.bytes_eq⟩
    have hne : s.off ≠ s.len := (Cursor.holds_cons.1 hholds).1.ne
    rw [step_run_ok hat.running hne (h.holds s.cursor hholds), hexec]
  · obtain ⟨e, hfails, herr⟩ := h.cut s.cursor ⟨hcut.started.le, hcut.short, hcut.bytes_eq⟩
    exact ⟨e, isUnderrun_iff_failsRead.2 hfails, step_run_error hcut.running hcut.started.ne herr⟩

end Sys2Proof.Machine
end

