-- ==== Sys2Proof/Proofs/Move.lean ====
section
/-! The Move family (R82, R85 to R88): the script of each of its decoders, and the rules. -/

namespace Sys2Proof.Machine

variable {o : Byte} {w : Bit} {reg : RegCode} {x : RmField} {imm : Word}

/-- R82: the bytes 8C and 8E of this decoder are the segment forms; every other first byte gives `d` and `w`. -/
theorem decodeMove_regMemReg_readsAs (hstore : o ≠ 0x8C#8) (hload : o ≠ 0x8E#8) (hx : x.wf = true) :
    ReadsAs (decodeMove .regMemReg) (o :: modRegRm x.mod reg x.rm :: dispBytes x) (rmReads x)
      (.movRmReg (bitAt o 1) (bitAt o 0) reg x) :=
  (readU8_readsAs o).bind ((decodeCommon_readsAs reg hx).bind_ok fun _ => by simp [hstore, hload])

theorem decodeMove_immToReg_readsAs (himm : immFits (wideW (bitAt o 3)) imm = true) :
    ReadsAs (decodeMove .immToReg) (o :: immBytes (wideW (bitAt o 3)) imm) [1, immLen (wideW (bitAt o 3))]
      (.movRegImm (bitAt o 3) (o.extractLsb' 0 3) imm) :=
  (readU8_readsAs o).bind ((readU16OrU8_readsAs himm).bind_ok fun _ => rfl)

theorem decodeMove_immToRegMem_readsAs (hx : x.wf = true) (himm : immFits (wideW (bitAt o 0)) imm = true) :
    ReadsAs (decodeMove .immToRegMem)
      (o :: modRegRm x.mod reg x.rm :: (dispBytes x ++ immBytes (wideW (bitAt o 0)) imm))
      (rmImmReads x (wideW (bitAt o 0))) (.movRmImm (bitAt o 0) reg x imm) :=
  (readU8_readsAs o).bind
    ((decodeCommon_readsAs reg hx).bind ((readU16OrU8_readsAs himm).bind_ok fun _ => rfl))

theorem decodeMove_memToAcc_readsAs (addr : Word) :
    ReadsAs (decodeMove .memToAcc) [o, loByte addr, hiByte addr] [1, 2] (.movMemToAcc (bitAt o 0) addr) :=
  (readU8_readsAs o).bind ((readU16_readsAs addr).bind_ok fun _ => rfl)

theorem decodeMove_accToMem_readsAs (addr : Word) :
    ReadsAs (decodeMove .accToMem) [o, loByte addr, hiByte addr] [1, 2] (.movAccToMem (bitAt o 0) addr) :=
  (readU8_readsAs o).bind ((readU16_readsAs addr).bind_ok fun _ => rfl)

/-- R109: the width of a memory operand does not enter its text. -/
theorem memText_eq_rmText (hmod : x.mod ≠ 0b11#2) (w : Bit) : memText x = rmText x w := by
  simp [memText, rmText, resolve, hmod]

/-- The accumulator as the source ends the line with one literal. -/
theorem line2_mov_ax (dst : String) : line2 "mov" dst "ax" = "mov " ++ dst ++ ", ax" := by
  rw [line2_mov, String.append_assoc]
  rfl

/-- R82 to R84: the segment forms' first bytes, 8C and 8E, do not have the six-bit pattern of 88-8B. -/
theorem movRmReg_opcode_ne_segment (d w : Bit) :
    0b100010#6 ++ d ++ w ≠ 0x8C#8 ∧ 0b100010#6 ++ d ++ w ≠ 0x8E#8 := by
  revert d w
  decide

/-- Settles O14, from the script of the register/memory form at a first byte that is no segment form's. -/
theorem movRegisterMemoryRule : Obligations.MovRegisterMemoryRule := by
  intro d w reg x hx
  obtain ⟨hstore, hload⟩ := movRmReg_opcode_ne_segment d w
  obtain ⟨hd, hw⟩ := bitAt_pattern6 0b100010#6 d w
  have hfamily := decodeMove_regMemReg_readsAs (reg := reg) hstore hload hx
  rw [hd, hw] at hfamily
  exact (decodeInstr_readsAs (Laws.OpcodeClass.movRmReg d w reg x) hfamily).ruleHolds fun _ => rfl

/-- Settles O16, from the script of the immediate-to-register form. -/
theorem movImmediateToRegisterRule : Obligations.MovImmediateToRegisterRule := by
  intro w reg imm himm
  obtain ⟨hw, hreg⟩ := bitAt_pattern4 0b1011#4 w reg
  have hfamily := decodeMove_immToReg_readsAs (o := 0b1011#4 ++ w ++ reg) (imm := imm) (by rwa [hw])
  rw [hw, hreg] at hfamily
  exact (decodeInstr_readsAs (Laws.OpcodeClass.movRegImm w reg imm) hfamily).ruleHolds fun _ => rfl

/-- Settles O17, from the script of the immediate-to-register/memory form; a memory destination's text is the
same for both widths. -/
theorem movImmediateToRegisterMemoryRule : Obligations.MovImmediateToRegisterMemoryRule := by
  intro w reg x imm hx himm
  have hw := bitAt_pattern7 0b1100011#7 w
  have hfamily := decodeMove_immToRegMem_readsAs (o := 0b1100011#7 ++ w) (reg := reg) (imm := imm) hx
    (by rwa [hw])
  rw [hw] at hfamily
  refine (decodeInstr_readsAs (Laws.OpcodeClass.movRmImm w reg x imm) hfamily).ruleHolds fun s => ?_
  by_cases hmod : x.mod = 0b11#2
  · simp only [exec, execMovRmImm, if_pos hmod]
    rfl
  · simp only [exec, execMovRmImm, if_neg hmod, memText_eq_rmText hmod w]
    rfl

/-- Settles O18, from the scripts of the two forms with a direct address. -/
theorem movAccumulatorRules : Obligations.MovAccumulatorRules := by
  intro w addr
  constructor
  · have hfamily := decodeMove_memToAcc_readsAs (o := 0b1010000#7 ++ w) addr
    rw [bitAt_pattern7] at hfamily
    exact (decodeInstr_readsAs (Laws.OpcodeClass.movMemToAcc w addr) hfamily).ruleHolds fun _ => rfl
  · have hfamily := decodeMove_accToMem_readsAs (o := 0b1010001#7 ++ w) addr
    rw [bitAt_pattern7] at hfamily
    refine (decodeInstr_readsAs (Laws.OpcodeClass.movAccToMem w addr) hfamily).ruleHolds fun s => ?_
    rw [exec, execMovAccToMem, line2_mov_ax]
    rfl

end Sys2Proof.Machine
end

