-- ==== Sys2Proof/Proofs/ImmediateText.lean ====
section
/-! The text of the 80-83 group's immediate (R94): what each value of `P_IMM8S_TEXT` writes for the
sign-extended byte, and that byte's two readings as numbers. -/

namespace Sys2Proof.Machine

variable {p : Params} {v : Word} {n : Nat}

/-- R12: a number that is not negative is written without a sign. -/
theorem decInt_natCast (n : Nat) : decInt (n : Int) = decNat n :=
  if_neg (by omega)

/-- R12: the text of a negative number is a minus sign and its magnitude. -/
theorem decInt_neg_natCast (h : 0 < n) : decInt (-(n : Int)) = "-" ++ decNat n := by
  rw [decInt, if_pos (by omega), Int.natAbs_neg, Int.natAbs_natCast]

/-- Sign extension leaves the number of a byte below 128 and adds 255 * 256 to every other. -/
theorem sext16_toNat (b : Byte) :
    (sext16 b).toNat = if b.toNat < 128 then b.toNat else 65280 + b.toNat := by
  have hmsb : b.msb = decide (128 ≤ b.toNat) := BitVec.msb_eq_decide b
  rw [sext16, BitVec.toNat_signExtend, BitVec.toNat_setWidth_of_le (by decide), hmsb]
  by_cases hlow : b.toNat < 128
  · rw [if_neg (by simpa using hlow), if_pos hlow, Nat.add_zero]
  · rw [if_pos (by simpa using hlow), if_neg hlow, Nat.add_comm]

theorem immText_signed (hp : p.imm8sText = .signed) :
    immText p 1#1 1#1 v = decInt (asSigned8 (loByte v)) := by
  rw [immText, if_pos ⟨rfl, rfl⟩, hp, asSigned8, ← sext16_toInt]
  rfl

theorem immText_wordUnsigned (hp : p.imm8sText = .wordUnsigned) :
    immText p 1#1 1#1 v = decNat (sext16 (loByte v)).toNat := by
  rw [immText, if_pos ⟨rfl, rfl⟩, hp]
  rfl

theorem immText_byteUnsigned (hp : p.imm8sText = .byteUnsigned) : immText p 1#1 1#1 v = decNat v.toNat := by
  rw [immText, if_pos ⟨rfl, rfl⟩, hp]
  rfl

/-- Settles O13: each parameter value's text, on the two halves of the byte's range. -/
theorem groupImmediateText : Obligations.GroupImmediateText := by
  refine fun p v => ⟨fun s w h => if_neg h, fun hv => ?_⟩
  have hbyte : (loByte v).toNat = v.toNat := by rw [loByte_toNat, Nat.mod_eq_of_lt hv]
  refine ⟨fun hp hlow => ?_, fun hp hhigh => ?_, fun hp hlow => ?_, fun hp hhigh => ?_,
    immText_byteUnsigned⟩
  · rw [immText_signed hp, asSigned8_eq, hbyte, if_pos hlow, decInt_natCast]
  · have hneg : (v.toNat : Int) - 256 = -((256 - v.toNat : Nat) : Int) := by omega
    rw [immText_signed hp, asSigned8_eq, hbyte, if_neg (by omega), hneg, decInt_neg_natCast (by omega)]
  · rw [immText_wordUnsigned hp, sext16_toNat, hbyte, if_pos hlow]
  · rw [immText_wordUnsigned hp, sext16_toNat, hbyte, if_neg (by omega)]

end Sys2Proof.Machine
end

