-- ==== Sys2Proof/Proofs/Arithmetic.lean ====
section
/-! The Arithmetic family (R90 to R100): for each sub-form the script of its decoder and, from it, the rule
of its row for any operation; the obligations are the three operations of each. -/

namespace Sys2Proof.Machine

variable {op : ArithOp} {o : Byte} {d w sx : Bit} {reg : RegCode} {x : RmField} {imm : Word}
  {t : State → State}

/-- R90 to R92: the opcode byte, then the common fields. -/
theorem decodeArithRmReg_readsAs (hx : x.wf = true) :
    ReadsAs (decodeArithRmReg op) (o :: modRegRm x.mod reg x.rm :: dispBytes x) (rmReads x)
      (arithRmRegInstr op (bitAt o 1) (bitAt o 0) (x.common reg)) :=
  (readU8_readsAs o).bind ((decodeCommon_readsAs reg hx).bind_ok fun _ => rfl)

/-- R93: the immediate is read once `reg` has named the operation. -/
theorem decodeArithRmImm_readsAs (hop : groupOp reg = some op) (hx : x.wf = true)
    (himm : immFits (wideSW (bitAt o 1) (bitAt o 0)) imm = true) :
    ReadsAs decodeArithRmImm
      (o :: modRegRm x.mod reg x.rm :: (dispBytes x ++ immBytes (wideSW (bitAt o 1) (bitAt o 0)) imm))
      (rmImmReads x (wideSW (bitAt o 1) (bitAt o 0)))
      (arithRmImmInstr op (bitAt o 1) (bitAt o 0) x imm) := by
  refine (readU8_readsAs o).bind ((decodeCommon_readsAs reg hx).bind ?_)
  simp only [common_reg, hop]
  exact (readU16OrU8_readsAs himm).bind_ok fun _ => rfl

/-- R98 to R100: the opcode byte, then the immediate. -/
theorem decodeArithAcc_readsAs (himm : immFits (wideW (bitAt o 0)) imm = true) :
    ReadsAs (decodeArithAcc op) (o :: immBytes (wideW (bitAt o 0)) imm) [1, immLen (wideW (bitAt o 0))]
      (arithAccInstr op (bitAt o 0) imm) :=
  (readU8_readsAs o).bind ((readU16OrU8_readsAs himm).bind_ok fun _ => rfl)

/-- R90 to R92: the rule of a register/memory row follows from its meaning. -/
theorem arithRmReg_ruleHolds (p : BitVec 6) (hclass : classify (p ++ d ++ w) = some (.arithRegMemReg op))
    (hx : x.wf = true) (hexec : ∀ s, exec (arithRmRegInstr op d w (x.common reg)) s = .next (t s)) :
    RuleHolds ((p ++ d ++ w) :: modRegRm x.mod reg x.rm :: dispBytes x) (rmReads x)
      (arithRmRegInstr op d w (x.common reg)) t := by
  obtain ⟨hd, hw⟩ := bitAt_pattern6 p d w
  have hfamily := decodeArithRmReg_readsAs (op := op) (o := p ++ d ++ w) (reg := reg) hx
  rw [hd, hw] at hfamily
  exact (decodeInstr_readsAs hclass hfamily).ruleHolds hexec

/-- R93: the rule of a row of the 80-83 group follows from its meaning. -/
theorem arithRmImm_ruleHolds (hclass : classify (0b100000#6 ++ sx ++ w) = some .arithImmToRegMem)
    (hop : groupOp reg = some op) (hx : x.wf = true) (himm : immFits (wideSW sx w) imm = true)
    (hexec : ∀ s, exec (arithRmImmInstr op sx w x imm) s = .next (t s)) :
    RuleHolds ((0b100000#6 ++ sx ++ w) :: modRegRm x.mod reg x.rm ::
        (dispBytes x ++ immBytes (wideSW sx w) imm)) (rmImmReads x (wideSW sx w))
      (arithRmImmInstr op sx w x imm) t := by
  obtain ⟨hs, hw⟩ := bitAt_pattern6 0b100000#6 sx w
  have hfamily := decodeArithRmImm_readsAs (o := 0b100000#6 ++ sx ++ w) (imm := imm) hop hx
    (by rwa [hs, hw])
  rw [hs, hw] at hfamily
  exact (decodeInstr_readsAs hclass hfamily).ruleHolds hexec

/-- R98 to R100: the rule of an accumulator row follows from its meaning. -/
theorem arithAcc_ruleHolds (p : BitVec 7) (hclass : classify (p ++ w) = some (.arithImmToAcc op))
    (himm : immFits (wideW w) imm = true) (hexec : ∀ s, exec (arithAccInstr op w imm) s = .next (t s)) :
    RuleHolds ((p ++ w) :: immBytes (wideW w) imm) [1, immLen (wideW w)] (arithAccInstr op w imm) t := by
  have hw := bitAt_pattern7 p w
  have hfamily := decodeArithAcc_readsAs (op := op) (o := p ++ w) (imm := imm) (by rwa [hw])
  rw [hw] at hfamily
  exact (decodeInstr_readsAs hclass hfamily).ruleHolds hexec

/-- R93: the destination's text after the qualifier is the one `rmText` gives at the width `w`. -/
theorem arithRmImm_eq_rmText (opcode : Byte) (n : Nat) (s : State) :
    arithRmImm op reg opcode n sx w x imm s =
      .next (commit
        (.arithmetic { form := .immToRegMem, op := op, common := some (x.common reg), data := some imm, d := 0#1,
                       s := sx, w := w, opcode := opcode, dataWide := wideSW sx w, start := s.off, len := n })
        (if x.mod = 0b11#2 then line2 (opName op) (regText w x.rm) (immText s.params sx w imm)
         else line2 (opName op) (sizeText w ++ rmText x w) (immText s.params sx w imm)) s) := by
  by_cases hmod : x.mod = 0b11#2
  · simp only [arithRmImm, if_pos hmod]
  · simp only [arithRmImm, if_neg hmod, memText_eq_rmText hmod w]

/-- Settles O19, from the rule of a register/memory row at each operation. -/
theorem arithmeticRegisterMemoryRules : Obligations.ArithmeticRegisterMemoryRules := fun d w reg x hx =>
  ⟨arithRmReg_ruleHolds (op := .add) _ (Laws.OpcodeClass.addRmReg d w reg x) hx fun _ => rfl,
    arithRmReg_ruleHolds (op := .sub) _ (Laws.OpcodeClass.subRmReg d w reg x) hx fun _ => rfl,
    arithRmReg_ruleHolds (op := .cmp) _ (Laws.OpcodeClass.cmpRmReg d w reg x) hx fun _ => rfl⟩

/-- Settles O20, from the rule of a row of the 80-83 group at each `reg` that names an operation. -/
theorem arithmeticImmediateRules : Obligations.ArithmeticImmediateRules := fun sx w x imm hx himm =>
  have hclass := Laws.OpcodeClass.addRmImm sx w x imm
  ⟨arithRmImm_ruleHolds (op := .add) (reg := 0b000#3) hclass rfl hx himm fun _ => arithRmImm_eq_rmText _ _ _,
    arithRmImm_ruleHolds (op := .sub) (reg := 0b101#3) hclass rfl hx himm fun _ => arithRmImm_eq_rmText _ _ _,
    arithRmImm_ruleHolds (op := .cmp) (reg := 0b111#3) hclass rfl hx himm fun _ => arithRmImm_eq_rmText _ _ _⟩

/-- Settles O21, from the rule of an accumulator row at each operation. -/
theorem arithmeticAccumulatorRules : Obligations.ArithmeticAccumulatorRules := fun w imm himm =>
  ⟨arithAcc_ruleHolds (op := .add) _ (Laws.OpcodeClass.addAccImm w imm) himm fun _ => rfl,
    arithAcc_ruleHolds (op := .sub) _ (Laws.OpcodeClass.subAccImm w imm) himm fun _ => rfl,
    arithAcc_ruleHolds (op := .cmp) _ (Laws.OpcodeClass.cmpAccImm w imm) himm fun _ => rfl⟩

end Sys2Proof.Machine
end

