-- ==== Sys2Proof/Proofs/OperandText.lean ====
section
/-! The text of the r/m operand (R109): the displacement term by the sign of the displacement, and one
equation of `rmText` for each addressing mode. -/

namespace Sys2Proof.Machine

variable {disp : Word} {n : Nat} {x : RmField}

/-- R109: the base expression stands alone when the displacement is zero. -/
theorem dispTerm_zero (h : disp.toInt = 0) : dispTerm disp = "" :=
  if_pos h

theorem dispTerm_pos (hn : 0 < n) (h : disp.toInt = n) : dispTerm disp = " + " ++ decNat n := by
  rw [dispTerm, asSigned16, h, if_neg (by omega), if_pos (by omega), decInt_natCast]

/-- R110: negation of the unbounded integer does not wrap, so -32768 has the magnitude 32768. -/
theorem dispTerm_neg (hn : 0 < n) (h : disp.toInt = -n) : dispTerm disp = " - " ++ decNat n := by
  rw [dispTerm, asSigned16, h, if_neg (by omega), if_neg (by omega), Int.neg_neg, decInt_natCast]

theorem rmText_register (hmod : x.mod = 0b11#2) (w : Bit) : rmText x w = regText w x.rm := by
  rw [rmText, resolve, if_pos hmod]
  rfl

/-- R106: mod 00 with rm 110 is an unsigned address and no base expression. -/
theorem rmText_direct (hmod : x.mod = 0b00#2) (hrm : x.rm = 0b110#3) (w : Bit) :
    rmText x w = "[" ++ decNat x.disp.toNat ++ "]" := by
  rw [rmText, resolve, hmod, hrm]
  rfl

theorem rmText_base (hmod : x.mod = 0b00#2) (hrm : x.rm ≠ 0b110#3) (w : Bit) :
    rmText x w = "[" ++ eaText x.rm ++ "]" := by
  rw [rmText, resolve, hmod, if_neg (by decide), if_pos ⟨rfl, hrm⟩]
  rfl

/-- The modes with displacement bytes, 01 and 10, differ in the read alone. -/
theorem rmText_base_disp (hmod : x.mod = 0b01#2 ∨ x.mod = 0b10#2) (w : Bit) :
    rmText x w = "[" ++ eaText x.rm ++ dispTerm x.disp ++ "]" := by
  obtain h | h := hmod <;> rw [rmText, resolve, h] <;> rfl

/-- Settles O10, from the equation of each addressing mode and the term of each sign. -/
theorem memoryOperandText : Obligations.MemoryOperandText := by
  refine fun x w => ⟨fun hmod => rmText_register hmod w, fun hmod hrm => rmText_direct hmod hrm w,
    fun hmod hrm => rmText_base hmod hrm w, fun hmod => ?_⟩
  rw [rmText_base_disp hmod w]
  refine ⟨fun hzero => ?_, fun n hn hpos => ?_, fun n hn hneg => ⟨?_, ?_⟩⟩
  · rw [dispTerm_zero hzero, String.append_empty]
  · rw [dispTerm_pos hn hpos, ← String.append_assoc]
  · have hmin : -32768 ≤ x.disp.toInt := BitVec.le_toInt x.disp
    omega
  · rw [dispTerm_neg hn hneg, ← String.append_assoc]

end Sys2Proof.Machine
end

