-- ==== Sys2Proof/Proofs/EncodedInstr.lean ====
section
/-! Every well-formed instruction has a rule at its own encoding: the families' rules put together, with the
scripts of the segment forms (R83, R84) and of the jumps and loops (R115) that complete them. -/

namespace Sys2Proof.Machine

variable {o rel8 : Byte} {reg : RegCode} {x : RmField} {i : Instr} {s : State} {bs : List Byte}
  {reads : List Nat}

/-- R83: the byte 8C selects the store form. -/
theorem decodeMove_segStore_readsAs (hx : x.wf = true) :
    ReadsAs (decodeMove .regMemReg) (0x8C#8 :: modRegRm x.mod reg x.rm :: dispBytes x) (rmReads x)
      (.movSegStore reg x) :=
  (readU8_readsAs 0x8C#8).bind ((decodeCommon_readsAs reg hx).bind_ok fun _ => rfl)

/-- R84: the byte 8E selects the load form. -/
theorem decodeMove_segLoad_readsAs (hx : x.wf = true) :
    ReadsAs (decodeMove .regMemReg) (0x8E#8 :: modRegRm x.mod reg x.rm :: dispBytes x) (rmReads x)
      (.movSegLoad reg x) :=
  (readU8_readsAs 0x8E#8).bind ((decodeCommon_readsAs reg hx).bind_ok fun _ => rfl)

/-- R115: a conditional jump is its opcode byte and the offset byte. -/
theorem decodeJcc_readsAs (o rel8 : Byte) :
    ReadsAs decodeJcc [o, rel8] [1, 1] (jccInstr (o.extractLsb' 0 4) rel8) :=
  (readU8_readsAs o).bind ((readU8_readsAs rel8).bind_ok fun _ => rfl)

/-- R115: a loop form is its opcode byte and the offset byte. -/
theorem decodeLoop_readsAs (o rel8 : Byte) :
    ReadsAs decodeLoop [o, rel8] [1, 1] (loopInstr (o.extractLsb' 0 2) rel8) :=
  (readU8_readsAs o).bind ((readU8_readsAs rel8).bind_ok fun _ => rfl)

/-- A meaning answers a state in every state, so a script of the decoder gives a rule. -/
theorem ReadsAs.exists_ruleHolds (h : ReadsAs decodeInstr (o :: bs) reads i) :
    ∃ t, RuleHolds (o :: bs) reads i t := by
  choose r l hexec _ _ using exec_commit i
  exact ⟨fun s => commit (r s) (l s) s, h.ruleHolds hexec⟩

theorem jcc_exists_ruleHolds (hclass : classify o = some .jcc) (hi : jccInstr (o.extractLsb' 0 4) rel8 = i) :
    ∃ t, RuleHolds [o, rel8] [1, 1] i t :=
  (decodeInstr_readsAs hclass (hi ▸ decodeJcc_readsAs o rel8)).exists_ruleHolds

theorem loop_exists_ruleHolds (hclass : classify o = some .loop) (hi : loopInstr (o.extractLsb' 0 2) rel8 = i) :
    ∃ t, RuleHolds [o, rel8] [1, 1] i t :=
  (decodeInstr_readsAs hclass (hi ▸ decodeLoop_readsAs o rel8)).exists_ruleHolds

/-- Every well-formed instruction has a rule at its encoding, with the reads of its pseudocode. -/
theorem encode_exists_ruleHolds (i : Instr) (hi : i.wf = true) : ∃ t, RuleHolds (encode i) (readsOf i) i t := by
  cases i with
  | movRmReg d w reg x => exact ⟨_, movRegisterMemoryRule d w reg x hi⟩
  | movSegStore reg x =>
    exact (decodeInstr_readsAs (Laws.OpcodeClass.movSegStore reg x)
      (decodeMove_segStore_readsAs hi)).exists_ruleHolds
  | movSegLoad reg x =>
    exact (decodeInstr_readsAs (Laws.OpcodeClass.movSegLoad reg x)
      (decodeMove_segLoad_readsAs hi)).exists_ruleHolds
  | movRegImm w reg imm => exact ⟨_, movImmediateToRegisterRule w reg imm hi⟩
  | movRmImm w reg x imm =>
    obtain ⟨hx, himm⟩ := (Bool.and_eq_true _ _).mp hi
    exact ⟨_, movImmediateToRegisterMemoryRule w reg x imm hx himm⟩
  | movMemToAcc w addr => exact ⟨_, (movAccumulatorRules w addr).1⟩
  | movAccToMem w addr => exact ⟨_, (movAccumulatorRules w addr).2⟩
  | addRmReg d w reg x => exact ⟨_, (arithmeticRegisterMemoryRules d w reg x hi).1⟩
  | subRmReg d w reg x => exact ⟨_, (arithmeticRegisterMemoryRules d w reg x hi).2.1⟩
  | cmpRmReg d w reg x => exact ⟨_, (arithmeticRegisterMemoryRules d w reg x hi).2.2⟩
  | addRmImm sx w x imm =>
    obtain ⟨hx, himm⟩ := (Bool.and_eq_true _ _).mp hi
    exact ⟨_, (arithmeticImmediateRules sx w x imm hx himm).1⟩
  | subRmImm sx w x imm =>
    obtain ⟨hx, himm⟩ := (Bool.and_eq_true _ _).mp hi
    exact ⟨_, (arithmeticImmediateRules sx w x imm hx himm).2.1⟩
  | cmpRmImm sx w x imm =>
    obtain ⟨hx, himm⟩ := (Bool.and_eq_true _ _).mp hi
    exact ⟨_, (arithmeticImmediateRules sx w x imm hx himm).2.2⟩
  | addAccImm w imm => exact ⟨_, (arithmeticAccumulatorRules w imm hi).1⟩
  | subAccImm w imm => exact ⟨_, (arithmeticAccumulatorRules w imm hi).2.1⟩
  | cmpAccImm w imm => exact ⟨_, (arithmeticAccumulatorRules w imm hi).2.2⟩
  | jo rel8 | jno rel8 | jb rel8 | jnb rel8 | jz rel8 | jnz rel8 | jbe rel8 | ja rel8
  | js rel8 | jns rel8 | jp rel8 | jnp rel8 | jl rel8 | jnl rel8 | jle rel8 | jg rel8 =>
    exact jcc_exists_ruleHolds (Laws.classify_opcode _) (by simp [jccInstr, Instr.opcode])
  | loopnz rel8 | loopz rel8 | loop rel8 | jcxz rel8 =>
    exact loop_exists_ruleHolds (Laws.classify_opcode _) (by simp [loopInstr, Instr.opcode])

/-- Where the next bytes are the encoding of a well-formed instruction, the step is its meaning. -/
theorem step_eq_exec_at_encode (hi : i.wf = true) (hat : AtBytes s (encode i)) : step s = exec i s := by
  obtain ⟨t, hrule⟩ := encode_exists_ruleHolds i hi
  obtain ⟨hexec, hstep, -⟩ := hrule s
  rw [hstep hat, hexec]

end Sys2Proof.Machine
end

