-- ==== Sys2Proof/Proofs/DecodedLength.lean ====
section
/-! An instruction that was decoded moved the cursor by its length (R36, R67): one lemma per family
decoder, from what its reads say when they answer. -/

namespace Sys2Proof.Machine

variable {c c' : Cursor} {i : Instr} {v : Word} {wide : Bool} {b : Byte} {k : Common} {op : ArithOp}

/-- The opcode byte and a two-byte address. -/
theorem readU8_readU16_advance {c1 : Cursor} (hb : c.readU8 = .ok (b, c1)) (hv : c1.readU16 = .ok (v, c')) :
    c' = c.advance 3 := by
  obtain ⟨-, -, rfl⟩ := Cursor.readU8_eq_ok.1 hb
  obtain ⟨-, -, rfl⟩ := Cursor.readU16_eq_ok.1 hv
  rw [Cursor.advance_advance]

/-- The opcode byte and an offset byte. -/
theorem readU8_readI8_advance {c1 : Cursor} {rel8 : Byte} (hb : c.readU8 = .ok (b, c1))
    (hv : c1.readI8 = .ok (rel8, c')) : c' = c.advance 2 := by
  obtain ⟨-, -, rfl⟩ := Cursor.readU8_eq_ok.1 hb
  obtain ⟨-, -, rfl⟩ := Cursor.readU8_eq_ok.1 hv
  rw [Cursor.advance_advance]

/-- The opcode byte and an immediate. -/
theorem readU8_readU16OrU8_advance {c1 : Cursor} (hb : c.readU8 = .ok (b, c1))
    (hv : c1.readU16OrU8 wide = .ok (v, c')) : c' = c.advance (1 + immLen wide) := by
  obtain ⟨-, -, rfl⟩ := Cursor.readU8_eq_ok.1 hb
  obtain ⟨rfl, -, -⟩ := Cursor.readU16OrU8_eq_ok hv
  rw [Cursor.advance_advance]

/-- The opcode byte and the common fields. -/
theorem readU8_decodeCommon_advance {c1 : Cursor} (hb : c.readU8 = .ok (b, c1))
    (hk : decodeCommon c1 = .ok (k, c')) : c' = c.advance (2 + dispLen k.mod k.rm) := by
  obtain ⟨-, -, rfl⟩ := Cursor.readU8_eq_ok.1 hb
  obtain ⟨rfl, -, -⟩ := decodeCommon_eq_ok hk
  rw [Cursor.advance_advance, ← Nat.add_assoc]

/-- The opcode byte, the common fields and an immediate. -/
theorem readU8_decodeCommon_readU16OrU8_advance {c1 c2 : Cursor} (hb : c.readU8 = .ok (b, c1))
    (hk : decodeCommon c1 = .ok (k, c2)) (hv : c2.readU16OrU8 wide = .ok (v, c')) :
    c' = c.advance (2 + dispLen k.mod k.rm + immLen wide) := by
  obtain rfl := readU8_decodeCommon_advance hb hk
  obtain ⟨rfl, -, -⟩ := Cursor.readU16OrU8_eq_ok hv
  rw [Cursor.advance_advance]

theorem length_jccInstr (j : BitVec 4) (rel8 : Byte) : (jccInstr j rel8).length = 2 := by
  unfold jccInstr
  split <;> rfl

theorem length_loopInstr (j : BitVec 2) (rel8 : Byte) : (loopInstr j rel8).length = 2 := by
  unfold loopInstr
  split <;> rfl

theorem length_arithRmRegInstr (op : ArithOp) (d w : Bit) (k : Common) :
    (arithRmRegInstr op d w k).length = 2 + dispLen k.mod k.rm := by
  cases op <;> rfl

theorem length_arithRmImmInstr (op : ArithOp) (sx w : Bit) (x : RmField) (v : Word) :
    (arithRmImmInstr op sx w x v).length = 2 + dispLen x.mod x.rm + immLen (wideSW sx w) := by
  cases op <;> rfl

theorem length_arithAccInstr (op : ArithOp) (w : Bit) (v : Word) :
    (arithAccInstr op w v).length = 1 + immLen (wideW w) := by
  cases op <;> rfl

theorem decodeMove_advance {form : MoveForm} (h : decodeMove form c = .ok (i, c')) :
    c' = c.advance i.length := by
  cases form with
  | regMemReg =>
    simp only [decodeMove, Except.bind_eq_ok, Prod.exists] at h
    obtain ⟨b, c1, hb, k, c2, hk, h⟩ := h
    obtain rfl := readU8_decodeCommon_advance hb hk
    split_ifs at h <;> cases h <;> rfl
  | immToReg =>
    simp only [decodeMove, Except.bind_eq_ok, Prod.exists] at h
    obtain ⟨b, c1, hb, v, c2, hv, h⟩ := h
    cases h
    exact readU8_readU16OrU8_advance hb hv
  | immToRegMem =>
    simp only [decodeMove, Except.bind_eq_ok, Prod.exists] at h
    obtain ⟨b, c1, hb, k, c2, hk, v, c3, hv, h⟩ := h
    cases h
    exact readU8_decodeCommon_readU16OrU8_advance hb hk hv
  | memToAcc | accToMem =>
    simp only [decodeMove, Except.bind_eq_ok, Prod.exists] at h
    obtain ⟨b, c1, hb, v, c2, hv, h⟩ := h
    cases h
    exact readU8_readU16_advance hb hv

theorem decodeArithRmReg_advance (h : decodeArithRmReg op c = .ok (i, c')) : c' = c.advance i.length := by
  simp only [decodeArithRmReg, Except.bind_eq_ok, Prod.exists] at h
  obtain ⟨b, c1, hb, k, c2, hk, h⟩ := h
  cases h
  rw [length_arithRmRegInstr]
  exact readU8_decodeCommon_advance hb hk

theorem decodeArithRmImm_advance (h : decodeArithRmImm c = .ok (i, c')) : c' = c.advance i.length := by
  simp only [decodeArithRmImm, Except.bind_eq_ok, Prod.exists] at h
  obtain ⟨b, c1, hb, k, c2, hk, h⟩ := h
  split at h
  · cases h
  · simp only [Except.bind_eq_ok, Prod.exists] at h
    obtain ⟨v, c3, hv, h⟩ := h
    cases h
    rw [length_arithRmImmInstr]
    exact readU8_decodeCommon_readU16OrU8_advance hb hk hv

theorem decodeArithAcc_advance (h : decodeArithAcc op c = .ok (i, c')) : c' = c.advance i.length := by
  simp only [decodeArithAcc, Except.bind_eq_ok, Prod.exists] at h
  obtain ⟨b, c1, hb, v, c2, hv, h⟩ := h
  cases h
  rw [length_arithAccInstr]
  exact readU8_readU16OrU8_advance hb hv

theorem decodeJcc_advance (h : decodeJcc c = .ok (i, c')) : c' = c.advance i.length := by
  simp only [decodeJcc, Except.bind_eq_ok, Prod.exists] at h
  obtain ⟨b, c1, hb, v, c2, hv, h⟩ := h
  cases h
  rw [length_jccInstr]
  exact readU8_readI8_advance hb hv

theorem decodeLoop_advance (h : decodeLoop c = .ok (i, c')) : c' = c.advance i.length := by
  simp only [decodeLoop, Except.bind_eq_ok, Prod.exists] at h
  obtain ⟨b, c1, hb, v, c2, hv, h⟩ := h
  cases h
  rw [length_loopInstr]
  exact readU8_readI8_advance hb hv

theorem decodeFamily_advance {family : OpClass} (h : decodeFamily family c = .ok (i, c')) :
    c' = c.advance i.length := by
  cases family with
  | move form => exact decodeMove_advance h
  | arithRegMemReg op => exact decodeArithRmReg_advance h
  | arithImmToAcc op => exact decodeArithAcc_advance h
  | arithImmToRegMem => exact decodeArithRmImm_advance h
  | jcc => exact decodeJcc_advance h
  | loop => exact decodeLoop_advance h

/-- R36, R67: the decoder's answer is the instruction and the cursor past its bytes. -/
theorem decodeInstr_advance (h : decodeInstr c = .ok (i, c')) : c' = c.advance i.length := by
  rw [decodeInstr, Except.bind_eq_ok] at h
  obtain ⟨bytes, -, h⟩ := h
  dsimp only at h
  split at h
  · cases h
  · exact decodeFamily_advance h

end Sys2Proof.Machine
end

