-- ==== Sys2Proof/Proofs/DriverLoop.lean ====
section
/-! The driver loop: what one step writes (R139), and the result in each phase (R142). -/

namespace Sys2Proof.Machine

variable {s : State}

/-- Settles O27, by the decoder's answer: a decoded instruction's meaning commits its record, an error is
raised. -/
theorem stepFollowsDriverLoop : Obligations.StepFollowsDriverLoop := by
  refine ⟨fun s t h => (step_cases h).1, fun s hrun => ⟨step_run_end hrun, fun hleft => ?_⟩⟩
  cases hdecode : decodeInstr s.cursor with
  | ok answer =>
    obtain ⟨i, c⟩ := answer
    obtain ⟨r, l, hexec, hstart, hlen⟩ := exec_commit i s
    have hoff : c.off = s.off + r.len := by
      rw [decodeInstr_advance hdecode, hlen, Cursor.advance_off, cursor_off]
    exact .inl ⟨i, c, r, l, rfl, hstart, hoff, (step_run_ok hrun hleft hdecode).trans hexec⟩
  | error e => exact .inr ⟨e, rfl, step_run_error hrun hleft hdecode⟩

theorem result_of_run (h : s.phase = .run) : result s = none := by
  rw [result, h]

theorem result_of_done (h : s.phase = .done) : result s = some (.ok s.text) := by
  rw [result, h]

/-- R142: the text of the failed run is no part of the result. -/
theorem result_of_error {e : Err} (h : s.phase = .error) (he : s.err = some e) :
    result s = some (.error e) := by
  rw [result, h, he]
  rfl

/-- R21: in ERROR there is an error to report. -/
theorem Inv.exists_err (hinv : Inv s) (h : s.phase = .error) : ∃ e, s.err = some e :=
  Option.isSome_iff_exists.1 (hinv.err_iff.2 h)

/-- Settles O45, from the result in each phase. -/
theorem resultOfRun : Obligations.ResultOfRun := by
  intro s hinv
  have herror : s.phase = .error → ∃ e, s.err = some e ∧ result s = some (.error e) := fun hphase => by
    obtain ⟨e, he⟩ := hinv.exists_err hphase
    exact ⟨e, he, result_of_error hphase he⟩
  refine ⟨⟨result_of_run, fun hnone => ?_⟩, result_of_done, herror⟩
  cases hphase : s.phase with
  | run => rfl
  | done => rw [result_of_done hphase] at hnone; cases hnone
  | error =>
    obtain ⟨e, -, hresult⟩ := herror hphase
    rw [hresult] at hnone
    cases hnone

end Sys2Proof.Machine
end

