-- ==== Sys2Proof/Proofs/StreamRun.lean ====
section
/-! The run over a stream of encodings (R145): each step is the meaning of the first instruction left, appends
the line that instruction has under the parameters, and leaves the encodings after it. -/

namespace Sys2Proof.Machine

variable {s t : State} {p : Params} {bs cs bytes : List Byte} {l : String} {r : Record}

/-- The line of an instruction depends on the parameters alone (R146): where two states share them, each meaning
computes one line in both. -/
theorem exec_commit_same_line (i : Instr) {s s' : State} (hparams : s.params = s'.params) :
    ∃ r r' l, exec i s = .next (commit r l s) ∧ exec i s' = .next (commit r' l s') ∧ r.len = i.length := by
  obtain ⟨p, buf, len, off, phase, text, count, last, err⟩ := s
  obtain ⟨p', buf', len', off', phase', text', count', last', err'⟩ := s'
  obtain rfl : p = p' := hparams
  cases i <;> exact ⟨_, _, _, rfl, rfl, rfl⟩

/-- The text a commit leaves determines the line. -/
theorem line_eq_of_commit_eq {r' : Record} {l' : String} (h : commit r l s = commit r' l' s) : l = l' := by
  have htext : s.text ++ l ++ "\n" = s.text ++ l' ++ "\n" := congrArg State.text h
  rwa [String.append_left_inj, String.append_right_inj] at htext

/-- In every state with the parameters `p` the meaning of `i` commits the line `l`, with a record of the
instruction's length. -/
def CommitsLine (p : Params) (i : Instr) (l : String) : Prop :=
  ∀ u : State, u.params = p → ∃ r, exec i u = .next (commit r l u) ∧ r.len = i.length

theorem exists_commitsLine (p : Params) (i : Instr) : ∃ l, CommitsLine p i l := by
  obtain ⟨_, l, hbase, -, -⟩ := exec_commit i { State.reset with params := p }
  refine ⟨l, fun u hu => ?_⟩
  obtain ⟨r, _, l', hexec, hbase', hlen⟩ :=
    exec_commit_same_line i (s' := { State.reset with params := p }) hu
  obtain rfl : l = l' := line_eq_of_commit_eq (Host.Outcome.next.inj (hbase.symm.trans hbase'))
  exact ⟨r, hexec, hlen⟩

theorem atBytes_iff_holds : AtBytes s bytes ↔ s.phase = .run ∧ s.cursor.Holds bytes :=
  ⟨fun ⟨hrun, hinside, hbytes⟩ => ⟨hrun, hinside, hbytes⟩,
    fun ⟨hrun, hinside, hbytes⟩ => ⟨hrun, hinside, hbytes⟩⟩

theorem AtBytes.of_append (h : AtBytes s (bs ++ cs)) : AtBytes s bs := by
  obtain ⟨hrun, hholds⟩ := atBytes_iff_holds.1 h
  exact atBytes_iff_holds.2 ⟨hrun, (Cursor.holds_append.1 hholds).1⟩

/-- A committed record of the length of the first bytes leaves the state at the bytes after them. -/
theorem AtBytes.commit (h : AtBytes s (bs ++ cs)) (hlen : r.len = bs.length) : AtBytes (commit r l s) cs := by
  obtain ⟨hrun, hholds⟩ := atBytes_iff_holds.1 h
  have hrest := (Cursor.holds_append.1 hholds).2
  rw [← hlen] at hrest
  exact atBytes_iff_holds.2 ⟨hrun, hrest⟩

/-- A run of one step more than a run from the next state. -/
theorem run_succ_of_step (h : step s = .next t) (n : Nat) :
    Sys2Proof.core.run (n + 1) s = Sys2Proof.core.run n t := by
  have hstep : Sys2Proof.core.step s = .next t := h
  simp only [Host.Core.run, hstep]

/-- R161: an accepted load leaves the state after reset, with the parameters kept and the bytes latched. -/
theorem load_next_eq (h : load bytes s = .next t) :
    t = { State.reset with params := s.params, buf := Memory.ofBytes bytes, len := bytes.length } := by
  unfold load at h
  split at h
  · cases h; rfl
  · cases h

theorem atBytes_of_load (h : load bytes s = .next t) : AtBytes t bytes := by
  obtain rfl := load_next_eq h
  have hholds : (cursorOfBytes (bytes ++ [])).Holds bytes := Cursor.holds_ofBytes bytes []
  rw [List.append_nil] at hholds
  exact atBytes_iff_holds.2 ⟨rfl, hholds⟩

/-- R145: the run over the encodings that fill the rest of the buffer. Each step appends the line of the
first instruction and leaves the state at the encodings of the others; the last step ends the stream. -/
theorem run_at_encodings {line : Instr → String} (hline : ∀ i, CommitsLine p i (line i)) (is : List Instr)
    (hwf : ∀ i ∈ is, i.wf = true) (hat : AtBytes s (is.flatMap encode)) (hparams : s.params = p)
    (hend : s.off + (is.flatMap encode).length = s.len) :
    ∃ t, Sys2Proof.core.run (is.length + 1) s = .next t ∧ t.phase = .done ∧ t.off = t.len ∧
      t.count = s.count + is.length ∧ t.err = s.err ∧
      t.text = s.text ++ String.join ((is.map line).map (· ++ "\n")) := by
  induction is generalizing s with
  | nil =>
    exact ⟨finish s, run_succ_of_step (step_run_end hat.running hend) 0, rfl, hend, rfl, rfl, by simp⟩
  | cons i is ih =>
    obtain ⟨hi, hwf'⟩ := List.forall_mem_cons.1 hwf
    rw [List.flatMap_cons] at hat hend
    obtain ⟨r, hexec, hlen⟩ := hline i s hparams
    rw [← (Laws.encode_length i).1] at hlen
    have hstep : step s = .next (commit r (line i) s) := (step_eq_exec_at_encode hi hat.of_append).trans hexec
    have hend' : (commit r (line i) s).off + (is.flatMap encode).length = (commit r (line i) s).len := by
      rw [List.length_append] at hend
      rw [commit_off, commit_len, hlen, Nat.add_assoc, hend]
    obtain ⟨t, hrun, hdone, hoff, hcount, herr, htext⟩ := ih hwf' (hat.commit hlen) hparams hend'
    refine ⟨t, (run_succ_of_step hstep _).trans hrun, hdone, hoff, ?_, herr, ?_⟩
    · rw [hcount, commit_count, List.length_cons]
      omega
    · rw [htext, commit_text]
      simp [String.append_assoc]

/-- Settles O51, from the run over the encodings: the lines are those that the instructions commit under the
parameters, which a load keeps. -/
theorem exactConsumption : Obligations.ExactConsumption := by
  intro s s0 is hwf hload
  choose line hline using exists_commitsLine s.params
  have hat := atBytes_of_load hload
  obtain rfl := load_next_eq hload
  obtain ⟨t, hrun, hdone, hoff, hcount, herr, htext⟩ := run_at_encodings hline is hwf hat rfl (Nat.zero_add _)
  refine ⟨t, is.map line, hrun, hdone, hoff, hcount.trans (Nat.zero_add _), herr, List.length_map _, htext,
    fun k i hk => ⟨line i, by rw [List.getElem?_map, hk]; rfl, fun u hu => ?_⟩⟩
  obtain ⟨r, hexec, -⟩ := hline i u hu
  exact ⟨commit r (line i) u, hexec, commit_text u r (line i)⟩

end Sys2Proof.Machine
end

