-- ==== Sys2Proof/Proofs/ErrorEntry.lean ====
section
/-! Entering ERROR: what a step that ends there writes (R154), and the Underrun of a buffer that ends inside
an encoding (R149). -/

namespace Sys2Proof.Machine

/-- A step that ends in ERROR raised an error: the end of the stream ends in DONE, and a commit stays in RUN. -/
theorem step_to_error {s t : State} (h : step s = .next t) (hphase : t.phase = .error) : ∃ e, t = raise e s := by
  have hrun : s.phase = .run := (step_cases h).1
  obtain rfl | ⟨r, l, rfl⟩ | hraise := step_next_update h
  · cases hphase
  · rw [commit_phase, hrun] at hphase
    cases hphase
  · exact hraise

/-- Settles O30: such a step raised an error, which writes `phase` and `err` alone. -/
theorem errorEntryWritesPhaseAndErrAlone : Obligations.ErrorEntryWritesPhaseAndErrAlone :=
  fun _ _ => step_to_error

/-- Settles O35, from the rule of the instruction at its own encoding. -/
theorem truncatedInstructionRaisesUnderrun : Obligations.TruncatedInstructionRaisesUnderrun := by
  intro s i hi hcut
  obtain ⟨t, hrule⟩ := encode_exists_ruleHolds i hi
  obtain ⟨-, -, hunderrun⟩ := hrule s
  exact hunderrun hcut

end Sys2Proof.Machine
end

