-- ==== Sys2Proof/Proofs/CheckOrder.lean ====
section
/-! The order of checks within one instruction (R153): the checks of every first byte as one sequence that
ends past the instruction or in the first failing check's error, and the decoder follows it. -/

namespace Sys2Proof

open Machine

/-- Whether the decoder of the class reads the common fields (R49). -/
def OpClass.hasModRegRm : OpClass → Bool
  | .move .regMemReg | .move .immToRegMem | .arithRegMemReg _ | .arithImmToRegMem => true
  | _ => false

/-- The size of the last read of the class's decoder, after the common fields; 0 where it has none (R63). -/
def OpClass.tailLen (b : Byte) : OpClass → Nat
  | .move .immToReg => immLen (wideW (bitAt b 3))
  | .move .immToRegMem | .arithImmToAcc _ => immLen (wideW (bitAt b 0))
  | .arithImmToRegMem => immLen (wideSW (bitAt b 1) (bitAt b 0))
  | .move .memToAcc | .move .accToMem => 2
  | .jcc | .loop => 1
  | .move .regMemReg | .arithRegMemReg _ => 0

/-- The 80-83 group (R93). -/
abbrev groupByte (b : Byte) : Prop := 0x80 ≤ b.toNat ∧ b.toNat ≤ 0x83

/-- R52: the classifier rejects exactly the bytes that are none of the 70. -/
theorem classify_eq_none_iff (b : Byte) : classify b = none ↔ ¬ acceptedByte b := by
  revert b; decide

/-- R49, R63: the formats of an accepted byte are those of its class. -/
theorem format_of_classify (b : Byte) : ∀ k ∈ classify b, hasModRegRm b = k.hasModRegRm ∧
    Machine.tailLen b = k.tailLen b ∧ (groupByte b ↔ k = .arithImmToRegMem) := by
  revert b; decide

/-- R47: the six-bit pattern of the group leaves its two other bits free. -/
theorem groupByte_pattern (sx w : Bit) : groupByte (0b100000#6 ++ sx ++ w) := by
  revert sx w; decide

theorem acceptedByte_of_groupByte {b : Byte} (h : groupByte b) : acceptedByte b := by
  unfold acceptedByte
  omega

/-- R69, R93: the `reg` values that name no operation. -/
theorem groupOp_eq_none_iff (reg : RegCode) :
    groupOp reg = none ↔ reg ≠ 0b000#3 ∧ reg ≠ 0b101#3 ∧ reg ≠ 0b111#3 := by
  revert reg; decide

/-- The five `reg` values that name no operation (R150). -/
theorem groupOp_eq_none_iff_cases (reg : RegCode) : groupOp reg = none ↔
    reg = 0b001#3 ∨ reg = 0b010#3 ∨ reg = 0b011#3 ∨ reg = 0b100#3 ∨ reg = 0b110#3 := by
  revert reg; decide

end Sys2Proof

namespace Sys2Proof.Machine

variable {α β : Type} {c c' : Cursor} {n : Nat} {e : Err} {s : State} {x : Except Err (α × Cursor)}

/-- The cursor past a read of the next `n` bytes, or the Underrun of that read (R149). A read of no bytes
asks nothing of the buffer. -/
def Cursor.pass (c : Cursor) (n : Nat) : Except Err Cursor :=
  if n ≠ 0 ∧ c.len < c.off + n then .error (c.underrunAt c.off n) else .ok (c.advance n)

theorem Cursor.pass_ok (h : c.off + n ≤ c.len) : c.pass n = .ok (c.advance n) :=
  if_neg fun ⟨_, hpast⟩ => absurd hpast (by omega)

theorem Cursor.pass_underrun (hn : n ≠ 0) (h : c.len < c.off + n) : c.pass n = .error (c.underrunAt c.off n) :=
  if_pos ⟨hn, h⟩

/-- Where a decoder leaves the cursor, without the value it answers. -/
def endOf (x : Except Err (α × Cursor)) : Except Err Cursor := x.map Prod.snd

@[simp] theorem endOf_ok {p : α × Cursor} : endOf (.ok p) = .ok p.2 := rfl
@[simp] theorem endOf_error : endOf (.error e : Except Err (α × Cursor)) = .error e := rfl

theorem endOf_eq_error : endOf x = .error e ↔ x = .error e := by
  cases x <;> simp

theorem endOf_eq_ok : endOf x = .ok c' ↔ ∃ a, x = .ok (a, c') := by
  cases x <;> simp [Prod.ext_iff]

/-- What follows a read goes on from where the read leaves the cursor, if its own end does not depend on the
value read. -/
theorem endOf_bind {g : α × Cursor → Except Err (β × Cursor)} {next : Cursor → Except Err Cursor}
    (hg : ∀ a c, endOf (g (a, c)) = next c) : endOf (x >>= g) = endOf x >>= next := by
  cases x with
  | ok p => exact hg p.1 p.2
  | error e => rfl

theorem endOf_bind_ok {g : α × Cursor → Except Err (β × Cursor)} (hg : ∀ a c, endOf (g (a, c)) = .ok c) :
    endOf (x >>= g) = endOf x := by
  rw [endOf_bind hg]
  cases endOf x <;> rfl

theorem endOf_readU8 : endOf c.readU8 = c.pass 1 := by
  by_cases h : c.len < c.off + 1
  · rw [Cursor.readU8_underrun h, Cursor.pass_underrun one_ne_zero h, endOf_error]
  · rw [Cursor.readU8_ok (by omega), Cursor.pass_ok (by omega), endOf_ok]

theorem endOf_readU16 : endOf c.readU16 = c.pass 2 := by
  by_cases h : c.len < c.off + 2
  · rw [Cursor.readU16_underrun h, Cursor.pass_underrun two_ne_zero h, endOf_error]
  · rw [Cursor.readU16_ok (by omega), Cursor.pass_ok (by omega), endOf_ok]

theorem endOf_readU16OrU8 (wide : Bool) : endOf (c.readU16OrU8 wide) = c.pass (immLen wide) := by
  cases wide with
  | true => exact endOf_readU16
  | false => exact (endOf_bind_ok fun _ _ => rfl).trans endOf_readU8

theorem endOf_decodeDisp (mod : ModCode) (rm : RegCode) :
    endOf (decodeDisp mod rm c) = c.pass (dispLen mod rm) := by
  unfold decodeDisp dispLen
  split_ifs
  · exact (endOf_bind_ok fun _ _ => rfl).trans endOf_readU8
  · exact endOf_readU16
  · exact endOf_readU16
  · rfl

/-- The checks of the common fields: the mod-reg-rm byte, then the displacement (R57). -/
def Cursor.passCommon (c : Cursor) : Except Err Cursor := do
  let m := c.buf.read c.off
  let c ← c.pass 1
  c.pass (dispLen (modOf m) (rmOf m))

/-- What follows the common fields goes on past them, and may depend on `reg` of the mod-reg-rm byte. -/
theorem endOf_decodeCommon_bind {g : Common × Cursor → Except Err (β × Cursor)}
    {next : RegCode → Cursor → Except Err Cursor} (hg : ∀ k c, endOf (g (k, c)) = next k.reg c) :
    endOf (decodeCommon c >>= g) = c.passCommon >>= next (regOf (c.buf.read c.off)) := by
  unfold Cursor.passCommon
  by_cases h : c.off < c.len
  · rw [Cursor.pass_ok h, Except.ok_bind_ok, ← endOf_decodeDisp]
    cases hdisp : decodeDisp (modOf (c.buf.read c.off)) (rmOf (c.buf.read c.off)) (c.advance 1) with
    | ok p =>
      rw [decodeCommon_ok_of_disp h hdisp]
      exact hg _ _
    | error e =>
      rw [decodeCommon_error_of_disp h hdisp]
      rfl
  · rw [decodeCommon_underrun (by omega), Cursor.pass_underrun one_ne_zero (by omega)]
    rfl

/-- The checks between the first byte and the last read: the common fields where the format has them. -/
def Cursor.passHead (c : Cursor) (hasRm : Bool) : Except Err Cursor :=
  if hasRm then (c.advance 1).passCommon else .ok (c.advance 1)

/-- The checks after the common fields: the operation of the 80-83 group, then the last read (R93). -/
def Cursor.passLast (c : Cursor) (group : Prop) [Decidable group] (b : Byte) (reg : RegCode) (tail : Nat) :
    Except Err Cursor :=
  if group ∧ groupOp reg = none then .error (.invalidOperation c.start b reg) else c.pass tail

/-- The checks after the first byte, in stream order (R153). -/
def Cursor.passRest (c : Cursor) (hasRm : Bool) (group : Prop) [Decidable group] (tail : Nat) :
    Except Err Cursor := do
  let c' ← c.passHead hasRm
  c'.passLast group (c.buf.read c.off) (regOf (c.buf.read (c.off + 1))) tail

/-- All checks of one instruction, in stream order (R148, R153). -/
def Cursor.passInstr (c : Cursor) : Except Err Cursor :=
  let b := c.buf.read c.off
  if acceptedByte b then c.passRest (hasModRegRm b) (groupByte b) (tailLen b)
  else .error (.unsupportedOpcode c.off b)

/-- Once the first byte is read, a decoder goes on from the cursor past it. -/
theorem endOf_readU8_bind {g : Byte × Cursor → Except Err (β × Cursor)} (h : c.off < c.len) :
    endOf (c.readU8 >>= g) = endOf (g (c.buf.read c.off, c.advance 1)) := by
  rw [Cursor.readU8_ok h, Except.ok_bind_ok]

section
variable {group : Prop} [Decidable group] {b : Byte} {reg : RegCode} {tail : Nat}

theorem Cursor.passLast_invalidOperation (hgroup : group) (hop : groupOp reg = none) :
    c.passLast group b reg tail = .error (.invalidOperation c.start b reg) := if_pos ⟨hgroup, hop⟩

theorem Cursor.passLast_valid (h : ¬ (group ∧ groupOp reg = none)) : c.passLast group b reg tail = c.pass tail :=
  if_neg h

/-- Outside the group `reg` is not checked (R70). -/
theorem Cursor.passLast_of_not_group (h : ¬ group) : c.passLast group b reg tail = c.pass tail :=
  Cursor.passLast_valid fun hbad => h hbad.1

/-- The formats without common fields: one read after the first byte. -/
theorem endOf_plainFormat {g : Byte × Cursor → Except Err (β × Cursor)} (h : c.off < c.len) (hgroup : ¬ group)
    (hg : endOf (g (c.buf.read c.off, c.advance 1)) = (c.advance 1).pass tail) :
    endOf (c.readU8 >>= g) = c.passRest false group tail :=
  (endOf_readU8_bind h).trans (hg.trans (Cursor.passLast_of_not_group hgroup).symm)

/-- The formats with common fields: after them the operation, where the group checks it, and the last read. -/
theorem endOf_commonFormat {g : Common × Cursor → Except Err (β × Cursor)}
    (hg : ∀ k c', endOf (g (k, c')) = c'.passLast group (c.buf.read c.off) k.reg tail) :
    endOf (decodeCommon (c.advance 1) >>= g) = c.passRest true group tail :=
  endOf_decodeCommon_bind (next := fun reg c' => c'.passLast group (c.buf.read c.off) reg tail) hg

end

theorem endOf_decodeMove (form : MoveForm) (h : c.off < c.len) : endOf (decodeMove form c) =
    c.passRest (OpClass.move form).hasModRegRm (OpClass.move form = .arithImmToRegMem)
      ((OpClass.move form).tailLen (c.buf.read c.off)) := by
  cases form with
  | regMemReg =>
    refine (endOf_readU8_bind h).trans (endOf_commonFormat fun k c' => ?_)
    rw [Cursor.passLast_of_not_group nofun]
    dsimp only
    split_ifs <;> rfl
  | immToReg => exact endOf_plainFormat h nofun ((endOf_bind_ok fun _ _ => rfl).trans (endOf_readU16OrU8 _))
  | immToRegMem =>
    refine (endOf_readU8_bind h).trans (endOf_commonFormat fun k c' => ?_)
    rw [Cursor.passLast_of_not_group nofun]
    exact (endOf_bind_ok fun _ _ => rfl).trans (endOf_readU16OrU8 _)
  | memToAcc | accToMem => exact endOf_plainFormat h nofun ((endOf_bind_ok fun _ _ => rfl).trans endOf_readU16)

/-- R93: the 80-83 group checks the operation between the common fields and the immediate. -/
theorem endOf_decodeArithRmImm {group : Prop} [Decidable group] (h : c.off < c.len) (hgroup : group) :
    endOf (decodeArithRmImm c) = c.passRest true group (OpClass.arithImmToRegMem.tailLen (c.buf.read c.off)) := by
  refine (endOf_readU8_bind h).trans (endOf_commonFormat fun k c' => ?_)
  dsimp only
  cases hop : groupOp k.reg with
  | none => exact (Cursor.passLast_invalidOperation hgroup hop).symm
  | some op =>
    rw [Cursor.passLast_valid (by simp [hop])]
    exact (endOf_bind_ok fun _ _ => rfl).trans (endOf_readU16OrU8 _)

theorem endOf_decodeFamily (k : OpClass) (h : c.off < c.len) : endOf (decodeFamily k c) =
    c.passRest k.hasModRegRm (k = .arithImmToRegMem) (k.tailLen (c.buf.read c.off)) := by
  cases k with
  | move form => exact endOf_decodeMove form h
  | arithRegMemReg op =>
    refine (endOf_readU8_bind h).trans (endOf_commonFormat fun k c' => ?_)
    rw [Cursor.passLast_of_not_group nofun]
    rfl
  | arithImmToAcc op =>
    exact endOf_plainFormat h nofun ((endOf_bind_ok fun _ _ => rfl).trans (endOf_readU16OrU8 _))
  | arithImmToRegMem => exact endOf_decodeArithRmImm h rfl
  | jcc | loop => exact endOf_plainFormat h nofun ((endOf_bind_ok fun _ _ => rfl).trans endOf_readU8)

/-- R153: the decoder ends where the checks do, in the same error or past the same bytes. -/
theorem endOf_decodeInstr (h : c.off < c.len) : endOf (decodeInstr c) = c.passInstr := by
  rw [decodeInstr_eq h, Cursor.passInstr]
  cases hclass : classify (c.buf.read c.off) with
  | none => exact (if_neg ((classify_eq_none_iff _).1 hclass)).symm
  | some k =>
    have haccepted : acceptedByte (c.buf.read c.off) :=
      not_not.1 (mt (classify_eq_none_iff _).2 (by simp [hclass]))
    obtain ⟨hrm, htail, hgroup⟩ := format_of_classify _ k hclass
    rw [if_pos haccepted, hrm, htail]
    simp only [hgroup]
    exact endOf_decodeFamily k h

theorem Cursor.pass_eq_error (h : c.pass n = .error e) : e = c.underrunAt c.off n := by
  unfold Cursor.pass at h
  split at h
  · exact (Except.error.inj h).symm
  · cases h

theorem Cursor.pass_eq_ok (h : c.pass n = .ok c') : c' = c.advance n := by
  unfold Cursor.pass at h
  split at h
  · cases h
  · exact (Except.ok.inj h).symm

theorem Cursor.passHead_eq_error {hasRm : Bool} (h : c.passHead hasRm = .error e) :
    ∃ a n, e = .underrun c.start a n (c.len - a) := by
  cases hasRm with
  | false => cases h
  | true =>
    obtain hbyte | ⟨c1, hbyte, hdisp⟩ := Except.bind_eq_error.1 h
    · exact ⟨_, _, (Cursor.pass_eq_error hbyte :)⟩
    · obtain rfl := Cursor.pass_eq_ok hbyte
      exact ⟨_, _, (Cursor.pass_eq_error hdisp :)⟩

theorem Cursor.passHead_eq_ok {hasRm : Bool} (h : c.passHead hasRm = .ok c') : ∃ n, c' = c.advance n := by
  cases hasRm with
  | false => exact ⟨1, (Except.ok.inj h).symm⟩
  | true =>
    obtain ⟨c1, hbyte, hdisp⟩ := Except.bind_eq_ok.1 h
    obtain rfl := Cursor.pass_eq_ok hbyte
    obtain rfl := Cursor.pass_eq_ok hdisp
    exact ⟨_, by rw [Cursor.advance_advance, Cursor.advance_advance]⟩

/-- What an error of the checks says: the first byte is illegal, or a read passes the end, or the byte is of
the 80-83 group and `reg` names no operation. -/
theorem Cursor.passInstr_eq_error (h : c.passInstr = .error e) :
    (¬ acceptedByte (c.buf.read c.off) ∧ e = .unsupportedOpcode c.off (c.buf.read c.off)) ∨
    (∃ a n, e = .underrun c.start a n (c.len - a)) ∨
    (groupByte (c.buf.read c.off) ∧ groupOp (regOf (c.buf.read (c.off + 1))) = none ∧
      e = .invalidOperation c.start (c.buf.read c.off) (regOf (c.buf.read (c.off + 1)))) := by
  unfold Cursor.passInstr at h
  dsimp only at h
  split at h
  next =>
    obtain hhead | ⟨c1, hhead, hlast⟩ := Except.bind_eq_error.1 h
    · exact .inr (.inl (Cursor.passHead_eq_error hhead))
    · obtain ⟨n, rfl⟩ := Cursor.passHead_eq_ok hhead
      unfold Cursor.passLast at hlast
      split at hlast
      next hbad =>
        obtain ⟨hgroup, hop⟩ := hbad
        exact .inr (.inr ⟨hgroup, hop, (Except.error.inj hlast).symm⟩)
      next => exact .inr (.inl ⟨_, _, (Cursor.pass_eq_error hlast :)⟩)
  next hillegal => exact .inl ⟨hillegal, (Except.error.inj h).symm⟩

end Sys2Proof.Machine
end

