-- ==== Sys2Proof/Proofs/RaisedErrors.lean ====
section
/-! Which error a step raises (R148, R150, R153): the step raises the error that the checks end in, and each
check has a lemma that says when it is the one. -/

namespace Sys2Proof.Machine

variable {c c' : Cursor} {n : Nat} {e : Err} {s : State}

/-- An error is raised exactly where the checks end in it. -/
theorem raises_iff (hrun : s.phase = .run) (hleft : s.off < s.len) :
    Raises s e ↔ s.cursor.passInstr = .error e := by
  rw [← endOf_decodeInstr hleft, endOf_eq_error]
  refine ⟨fun h => ?_, step_run_error hrun hleft.ne⟩
  cases hdecode : decodeInstr s.cursor with
  | ok p =>
    obtain ⟨r, l, hexec, -, -⟩ := exec_commit p.1 s
    have heq := h.symm.trans ((step_run_ok hrun hleft.ne hdecode).trans hexec)
    have hphase : Phase.error = s.phase := congrArg State.phase (Host.Outcome.next.inj heq)
    rw [hrun] at hphase
    cases hphase
  | error e' =>
    have heq := h.symm.trans (step_run_error hrun hleft.ne hdecode)
    have herr : some e = some e' := congrArg State.err (Host.Outcome.next.inj heq)
    rw [Option.some.inj herr]

/-- Where all checks pass the step commits the instruction. -/
theorem step_of_passInstr_ok (hrun : s.phase = .run) (hleft : s.off < s.len)
    (h : s.cursor.passInstr = .ok c') :
    ∃ t, step s = .next t ∧ t.phase = .run ∧ t.err = s.err ∧ t.off = c'.off := by
  rw [← endOf_decodeInstr hleft, endOf_eq_ok] at h
  obtain ⟨i, hdecode⟩ := h
  obtain ⟨r, l, hexec, -, hlen⟩ := exec_commit i s
  refine ⟨commit r l s, (step_run_ok hrun hleft.ne hdecode).trans hexec, hrun, rfl, ?_⟩
  rw [commit_off, hlen, decodeInstr_advance hdecode, Cursor.advance_off, cursor_off]

/-- A step that ends in ERROR is one that had a byte left and raised the error it leaves. -/
theorem raises_of_step {t : State} (hoff : s.off ≤ s.len) (h : step s = .next t) (hphase : t.phase = .error)
    (herr : t.err = some e) : s.phase = .run ∧ s.off < s.len ∧ Raises s e := by
  obtain ⟨hrun, -⟩ := step_cases h
  have hne : s.off ≠ s.len := by
    intro hend
    rw [step_run_end hrun hend] at h
    cases h
    cases hphase
  obtain ⟨e', rfl⟩ := step_to_error h hphase
  obtain rfl := Option.some.inj herr
  exact ⟨hrun, lt_of_le_of_ne hoff hne, h⟩

theorem Cursor.passInstr_illegal (h : ¬ acceptedByte (c.buf.read c.off)) :
    c.passInstr = .error (.unsupportedOpcode c.off (c.buf.read c.off)) := if_neg h

/-- Settles O32: the only check that ends in UnsupportedOpcode is the first byte's. -/
theorem illegalByteRaisesUnsupportedOpcode : Obligations.IllegalByteRaisesUnsupportedOpcode := by
  intro s hrun hleft
  refine ⟨fun hillegal => (raises_iff hrun hleft).2 (Cursor.passInstr_illegal hillegal), fun hstep => ?_⟩
  obtain ⟨hillegal, -⟩ | ⟨a, n, he⟩ | ⟨-, -, he⟩ := Cursor.passInstr_eq_error ((raises_iff hrun hleft).1 hstep)
  · exact hillegal
  · cases he
  · cases he

/-- R57: without the mod-reg-rm byte, its read fails. -/
theorem Cursor.passHead_no_modRegRm (h : c.len < c.off + 2) :
    c.passHead true = .error (c.underrunAt (c.off + 1) 1) := by
  have hbyte : (c.advance 1).pass 1 = _ := Cursor.pass_underrun one_ne_zero h
  simp only [Cursor.passHead, Cursor.passCommon, hbyte]
  rfl

section
variable {d : Nat} (hd : dispLen (modOf (c.buf.read (c.off + 1))) (rmOf (c.buf.read (c.off + 1))) = d)
include hd

/-- With the mod-reg-rm byte there, the displacement decides. -/
theorem Cursor.passHead_eq_pass_disp (h : c.off + 2 ≤ c.len) : c.passHead true = (c.advance 2).pass d := by
  have hbyte : (c.advance 1).pass 1 = _ := Cursor.pass_ok h
  subst hd
  simp only [Cursor.passHead, Cursor.passCommon, hbyte]
  rfl

theorem Cursor.passHead_no_disp (h : c.off + 2 ≤ c.len) (hpast : c.len < c.off + 2 + d) :
    c.passHead true = .error (c.underrunAt (c.off + 2) d) := by
  rw [Cursor.passHead_eq_pass_disp hd h]
  exact Cursor.pass_underrun (by omega) hpast

theorem Cursor.passHead_ok {hasRm : Bool} (h : c.off + (if hasRm then 2 + d else 1) ≤ c.len) :
    c.passHead hasRm = .ok (c.advance (if hasRm then 2 + d else 1)) := by
  cases hasRm with
  | false => rfl
  | true =>
    rw [if_pos rfl] at h ⊢
    rw [Cursor.passHead_eq_pass_disp hd (by omega), ← Cursor.advance_advance]
    exact Cursor.pass_ok (by simp; omega)

end

section
variable (haccepted : acceptedByte (c.buf.read c.off))
include haccepted

theorem Cursor.passInstr_of_head_error (hhead : c.passHead (hasModRegRm (c.buf.read c.off)) = .error e) :
    c.passInstr = .error e := by
  rw [Cursor.passInstr, if_pos haccepted, Cursor.passRest, hhead]
  rfl

theorem Cursor.passInstr_invalidOperation (hhead : c.passHead (hasModRegRm (c.buf.read c.off)) = .ok (c.advance n))
    (hgroup : groupByte (c.buf.read c.off)) (hop : groupOp (regOf (c.buf.read (c.off + 1))) = none) :
    c.passInstr = .error (.invalidOperation c.start (c.buf.read c.off) (regOf (c.buf.read (c.off + 1)))) := by
  rw [Cursor.passInstr, if_pos haccepted, Cursor.passRest, hhead]
  exact Cursor.passLast_invalidOperation hgroup hop

theorem Cursor.passInstr_eq_pass_tail (hhead : c.passHead (hasModRegRm (c.buf.read c.off)) = .ok (c.advance n))
    (hgood : ¬ (groupByte (c.buf.read c.off) ∧ groupOp (regOf (c.buf.read (c.off + 1))) = none)) :
    c.passInstr = (c.advance n).pass (tailLen (c.buf.read c.off)) := by
  rw [Cursor.passInstr, if_pos haccepted, Cursor.passRest, hhead]
  exact Cursor.passLast_valid hgood

end

/-- Settles O34, clause by clause: where the checks before it pass, the failing check's error is the end of all
checks. -/
theorem firstFailingCheckIsReported : Obligations.FirstFailingCheckIsReported := by
  intro s hrun hleft b m d h badOp
  have hraises {e : Err} : s.cursor.passInstr = .error e → Raises s e := (raises_iff hrun hleft).2
  have hbad : badOp ↔ groupByte b ∧ groupOp (regOf m) = none := by
    rw [groupOp_eq_none_iff, and_assoc]
  have hhead : s.off + h ≤ s.len → s.cursor.passHead (hasModRegRm b) = .ok (s.cursor.advance h) :=
    Cursor.passHead_ok (c := s.cursor) (d := d) rfl
  refine ⟨fun hillegal => hraises (Cursor.passInstr_illegal hillegal), fun hb =>
    ⟨fun hrm hcut => ?modRegRm, fun hrm hin hcut => ?displacement, fun hin hop => ?operation,
      fun hin hop hcut => ?lastRead, fun hin hop => ?success⟩⟩
  case modRegRm => exact hraises (Cursor.passInstr_of_head_error hb (hrm ▸ Cursor.passHead_no_modRegRm hcut))
  case displacement => exact hraises (Cursor.passInstr_of_head_error hb (hrm ▸ Cursor.passHead_no_disp rfl hin hcut))
  case operation =>
    obtain ⟨hgroup, hnone⟩ := hbad.1 hop
    exact hraises (Cursor.passInstr_invalidOperation hb (hhead hin) hgroup hnone)
  case lastRead =>
    have htail : tailLen b ≠ 0 := by omega
    have hlast := Cursor.passInstr_eq_pass_tail hb (hhead hin) (mt hbad.2 hop)
    exact hraises (hlast.trans (Cursor.pass_underrun htail hcut))
  case success =>
    have hlast := Cursor.passInstr_eq_pass_tail hb (hhead (by omega)) (mt hbad.2 hop)
    exact step_of_passInstr_ok hrun hleft (hlast.trans (Cursor.pass_ok hin))

/-- R150: the group byte, a mod-reg-rm byte whose `reg` names no operation and the displacement are enough,
whatever follows. -/
theorem Cursor.passInstr_of_group {o : Byte} {reg : RegCode} {x : RmField} (hgroup : groupByte o)
    (hop : groupOp reg = none) (h : c.Holds (o :: modRegRm x.mod reg x.rm :: dispBytes x)) :
    c.passInstr = .error (.invalidOperation c.start o reg) := by
  obtain ⟨-, rfl, hrest⟩ := Cursor.holds_cons.1 h
  obtain ⟨-, hm, hinside, -⟩ := Cursor.holds_cons.1 hrest
  simp only [Cursor.advance_buf, Cursor.advance_len, Cursor.advance_off, length_dispBytes] at hm hinside
  have hdisp : dispLen (modOf (c.buf.read (c.off + 1))) (rmOf (c.buf.read (c.off + 1))) = dispLen x.mod x.rm := by
    rw [hm, modOf_modRegRm, rmOf_modRegRm]
  have hreg : regOf (c.buf.read (c.off + 1)) = reg := by rw [hm, regOf_modRegRm]
  have hhead : c.passHead (hasModRegRm (c.buf.read c.off)) = _ :=
    Cursor.passHead_ok hdisp (by split <;> omega)
  subst hreg
  exact Cursor.passInstr_invalidOperation (acceptedByte_of_groupByte hgroup) hhead hgroup hop

/-- Settles O33: with the displacement there the operation is the next check, and no other check ends in
InvalidOperation. -/
theorem groupWithoutOperationRaisesInvalidOperation : Obligations.GroupWithoutOperationRaisesInvalidOperation := by
  refine ⟨fun s sx w reg x _ hadd hsub hcmp hat => ?raised, fun s t io op reg hoff hstep hphase herr => ?only⟩
  case raised =>
    obtain ⟨hrun, hholds⟩ := atBytes_iff_holds.1 hat
    exact (raises_iff hrun (Cursor.holds_cons.1 hholds).1).2
      (Cursor.passInstr_of_group (groupByte_pattern sx w) ((groupOp_eq_none_iff reg).2 ⟨hadd, hsub, hcmp⟩) hholds)
  case only =>
    obtain ⟨hrun, hleft, hraises⟩ := raises_of_step hoff hstep hphase herr
    obtain ⟨-, he⟩ | ⟨a, n, he⟩ | ⟨⟨hlow, hhigh⟩, hnone, he⟩ :=
      Cursor.passInstr_eq_error ((raises_iff hrun hleft).1 hraises)
    · cases he
    · cases he
    · cases he
      exact ⟨rfl, rfl, hlow, hhigh, (groupOp_eq_none_iff_cases _).1 hnone⟩

end Sys2Proof.Machine
end

