-- ==== Sys2Proof/Proofs/RoundTrip.lean ====
section
/-! Decoder and encoder are inverse (R46 to R49): the decoder has the script of every well-formed
instruction's encoding, and what it answers is well-formed with the bytes of its encoding before the cursor. -/

namespace Sys2Proof.Machine

variable {c c' c1 c2 : Cursor} {i : Instr} {o b rel8 : Byte} {v imm : Word} {wide : Bool} {k : Common}
  {op : ArithOp} {d w sx : Bit} {reg : RegCode} {x : RmField}

/-! ### From the encoding to the instruction -/

theorem decodeMove_movRmReg_readsAs (d w : Bit) (reg : RegCode) (hx : x.wf = true) :
    ReadsAs (decodeMove .regMemReg) (encode (.movRmReg d w reg x)) (rmReads x) (.movRmReg d w reg x) := by
  obtain ⟨hstore, hload⟩ := movRmReg_opcode_ne_segment d w
  obtain ⟨hd, hw⟩ := bitAt_pattern6 0b100010#6 d w
  have hscript := decodeMove_regMemReg_readsAs (reg := reg) hstore hload hx
  rwa [hd, hw] at hscript

theorem decodeMove_movRegImm_readsAs (reg : RegCode) (himm : immFits (wideW w) imm = true) :
    ReadsAs (decodeMove .immToReg) (encode (.movRegImm w reg imm)) [1, immLen (wideW w)]
      (.movRegImm w reg imm) := by
  obtain ⟨hw, hreg⟩ := bitAt_pattern4 0b1011#4 w reg
  have hscript := decodeMove_immToReg_readsAs (o := 0b1011#4 ++ w ++ reg) (imm := imm) (by rwa [hw])
  rwa [hw, hreg] at hscript

theorem decodeMove_movRmImm_readsAs (reg : RegCode) (hx : x.wf = true) (himm : immFits (wideW w) imm = true) :
    ReadsAs (decodeMove .immToRegMem) (encode (.movRmImm w reg x imm)) (rmImmReads x (wideW w))
      (.movRmImm w reg x imm) := by
  have hw := bitAt_pattern7 0b1100011#7 w
  have hscript := decodeMove_immToRegMem_readsAs (o := 0b1100011#7 ++ w) (reg := reg) (imm := imm) hx
    (by rwa [hw])
  rwa [hw] at hscript

theorem decodeMove_movMemToAcc_readsAs (w : Bit) (addr : Word) :
    ReadsAs (decodeMove .memToAcc) (encode (.movMemToAcc w addr)) [1, 2] (.movMemToAcc w addr) := by
  have hscript := decodeMove_memToAcc_readsAs (o := 0b1010000#7 ++ w) addr
  rwa [bitAt_pattern7] at hscript

theorem decodeMove_movAccToMem_readsAs (w : Bit) (addr : Word) :
    ReadsAs (decodeMove .accToMem) (encode (.movAccToMem w addr)) [1, 2] (.movAccToMem w addr) := by
  have hscript := decodeMove_accToMem_readsAs (o := 0b1010001#7 ++ w) addr
  rwa [bitAt_pattern7] at hscript

/-- R90 to R92: the script of a register/memory row at an opcode byte with the row's six-bit pattern. -/
theorem decodeArithRmReg_pattern_readsAs (p : BitVec 6) (hx : x.wf = true) :
    ReadsAs (decodeArithRmReg op) (encodeRm (p ++ d ++ w) reg x) (rmReads x)
      (arithRmRegInstr op d w (x.common reg)) := by
  obtain ⟨hd, hw⟩ := bitAt_pattern6 p d w
  have hscript := decodeArithRmReg_readsAs (op := op) (o := p ++ d ++ w) (reg := reg) hx
  rwa [hd, hw] at hscript

/-- R93: the script of a row of the 80-83 group. -/
theorem decodeArithRmImm_group_readsAs (hop : groupOp reg = some op) (hx : x.wf = true)
    (himm : immFits (wideSW sx w) imm = true) :
    ReadsAs decodeArithRmImm (encodeRmImm (0b100000#6 ++ sx ++ w) reg x (wideSW sx w) imm)
      (rmImmReads x (wideSW sx w)) (arithRmImmInstr op sx w x imm) := by
  obtain ⟨hs, hw⟩ := bitAt_pattern6 0b100000#6 sx w
  have hscript := decodeArithRmImm_readsAs (o := 0b100000#6 ++ sx ++ w) (imm := imm) hop hx (by rwa [hs, hw])
  rwa [hs, hw] at hscript

/-- R98 to R100: the script of an accumulator row at an opcode byte with the row's seven-bit pattern. -/
theorem decodeArithAcc_pattern_readsAs (p : BitVec 7) (himm : immFits (wideW w) imm = true) :
    ReadsAs (decodeArithAcc op) (encodeImm (p ++ w) (wideW w) imm) [1, immLen (wideW w)]
      (arithAccInstr op w imm) := by
  have hw := bitAt_pattern7 p w
  have hscript := decodeArithAcc_readsAs (op := op) (o := p ++ w) (imm := imm) (by rwa [hw])
  rwa [hw] at hscript

theorem decodeJcc_encode_readsAs (hbytes : encode i = [o, rel8]) (hreads : readsOf i = [1, 1])
    (hi : jccInstr (o.extractLsb' 0 4) rel8 = i) : ReadsAs decodeJcc (encode i) (readsOf i) i := by
  rw [hbytes, hreads]
  exact hi ▸ decodeJcc_readsAs o rel8

theorem decodeLoop_encode_readsAs (hbytes : encode i = [o, rel8]) (hreads : readsOf i = [1, 1])
    (hi : loopInstr (o.extractLsb' 0 2) rel8 = i) : ReadsAs decodeLoop (encode i) (readsOf i) i := by
  rw [hbytes, hreads]
  exact hi ▸ decodeLoop_readsAs o rel8

/-- The family decoder of every well-formed instruction has the script of its encoding. -/
theorem decodeFamily_encode_readsAs (i : Instr) (hi : i.wf = true) :
    ReadsAs (decodeFamily (Laws.opClass i)) (encode i) (readsOf i) i := by
  cases i with
  | movRmReg d w reg x => exact decodeMove_movRmReg_readsAs d w reg hi
  | movSegStore reg x => exact decodeMove_segStore_readsAs hi
  | movSegLoad reg x => exact decodeMove_segLoad_readsAs hi
  | movRegImm w reg imm => exact decodeMove_movRegImm_readsAs reg hi
  | movRmImm w reg x imm =>
    obtain ⟨hx, himm⟩ := (Bool.and_eq_true _ _).mp hi
    exact decodeMove_movRmImm_readsAs reg hx himm
  | movMemToAcc w addr => exact decodeMove_movMemToAcc_readsAs w addr
  | movAccToMem w addr => exact decodeMove_movAccToMem_readsAs w addr
  | addRmReg d w reg x => exact decodeArithRmReg_pattern_readsAs (op := .add) 0b000000#6 hi
  | subRmReg d w reg x => exact decodeArithRmReg_pattern_readsAs (op := .sub) 0b001010#6 hi
  | cmpRmReg d w reg x => exact decodeArithRmReg_pattern_readsAs (op := .cmp) 0b001110#6 hi
  | addRmImm sx w x imm =>
    obtain ⟨hx, himm⟩ := (Bool.and_eq_true _ _).mp hi
    exact decodeArithRmImm_group_readsAs (op := .add) (reg := 0b000#3) rfl hx himm
  | subRmImm sx w x imm =>
    obtain ⟨hx, himm⟩ := (Bool.and_eq_true _ _).mp hi
    exact decodeArithRmImm_group_readsAs (op := .sub) (reg := 0b101#3) rfl hx himm
  | cmpRmImm sx w x imm =>
    obtain ⟨hx, himm⟩ := (Bool.and_eq_true _ _).mp hi
    exact decodeArithRmImm_group_readsAs (op := .cmp) (reg := 0b111#3) rfl hx himm
  | addAccImm w imm => exact decodeArithAcc_pattern_readsAs (op := .add) 0b0000010#7 hi
  | subAccImm w imm => exact decodeArithAcc_pattern_readsAs (op := .sub) 0b0010110#7 hi
  | cmpAccImm w imm => exact decodeArithAcc_pattern_readsAs (op := .cmp) 0b0011110#7 hi
  | jo rel8 | jno rel8 | jb rel8 | jnb rel8 | jz rel8 | jnz rel8 | jbe rel8 | ja rel8
  | js rel8 | jns rel8 | jp rel8 | jnp rel8 | jl rel8 | jnl rel8 | jle rel8 | jg rel8 =>
    exact decodeJcc_encode_readsAs rfl rfl (by simp [jccInstr, Instr.opcode])
  | loopnz rel8 | loopz rel8 | loop rel8 | jcxz rel8 =>
    exact decodeLoop_encode_readsAs rfl rfl (by simp [loopInstr, Instr.opcode])

/-- R50: the first read of every instruction is its opcode byte. -/
theorem readsOf_eq_cons (i : Instr) : ∃ reads, readsOf i = 1 :: reads := by
  cases i <;> exact ⟨_, rfl⟩

/-- R50, R51: the first byte selects the instruction's own family, so the decoder has the script of its encoding. -/
theorem decodeInstr_encode_readsAs (i : Instr) (hi : i.wf = true) :
    ReadsAs decodeInstr (encode i) (readsOf i) i := by
  obtain ⟨bs, hbytes⟩ := encode_eq_cons i
  obtain ⟨reads, hreads⟩ := readsOf_eq_cons i
  have hfamily := decodeFamily_encode_readsAs i hi
  rw [hbytes, hreads] at hfamily ⊢
  exact decodeInstr_readsAs (Laws.classify_opcode i) hfamily

/-- Settles O4, from the script of each instruction's encoding; the buffer of a byte list holds its head. -/
theorem decodeOfEncodeIsInstruction : Obligations.DecodeOfEncodeIsInstruction := by
  intro i hi
  have hdecode := (decodeInstr_encode_readsAs i hi).holds
  refine ⟨fun c hinside hbytes => hdecode c ⟨hinside, hbytes⟩, fun rest => ?_⟩
  rw [decode, hdecode _ (Cursor.holds_ofBytes (encode i) rest), Except.ok_bind_ok]
  exact congrArg (fun n => Except.ok (i, n)) (Nat.zero_add _)

/-- The rule of a well-formed instruction at its encoding follows from its meaning. -/
theorem encode_ruleHolds {t : State → State} (i : Instr) (hi : i.wf = true)
    (hexec : ∀ s, exec i s = .next (t s)) : RuleHolds (encode i) (readsOf i) i t := by
  obtain ⟨bs, hbytes⟩ := encode_eq_cons i
  have hscript := decodeInstr_encode_readsAs i hi
  rw [hbytes] at hscript ⊢
  exact hscript.ruleHolds hexec

/-! ### From the bytes to the encoding -/

/-- Format `F_ACC_ADDR` (R49): what its two reads say. -/
theorem readU8_readU16_holds (hb : c.readU8 = .ok (b, c1)) (hv : c1.readU16 = .ok (v, c')) :
    b = c.buf.read c.off ∧ c.Holds (encodeAccAddr b v) := by
  obtain ⟨hlt, rfl, rfl⟩ := Cursor.readU8_eq_ok.1 hb
  obtain ⟨-, -, hbytes⟩ := Cursor.readU16OrU8_eq_ok (wide := true) hv
  exact ⟨rfl, Cursor.holds_cons.2 ⟨hlt, rfl, hbytes⟩⟩

/-- Format `F_REL8` (R49). -/
theorem readU8_readI8_holds (hb : c.readU8 = .ok (b, c1)) (hv : c1.readI8 = .ok (rel8, c')) :
    b = c.buf.read c.off ∧ c.Holds (encodeRel8 b rel8) := by
  obtain ⟨hlt, rfl, rfl⟩ := Cursor.readU8_eq_ok.1 hb
  obtain ⟨hlt', rfl, rfl⟩ := Cursor.readU8_eq_ok.1 hv
  exact ⟨rfl, Cursor.holds_cons.2 ⟨hlt, rfl, Cursor.holds_cons.2 ⟨hlt', rfl, Cursor.holds_nil.2 hlt'⟩⟩⟩

/-- Formats `F_REG_IMM` and `F_ACC_IMM` (R49). -/
theorem readU8_readU16OrU8_holds (hb : c.readU8 = .ok (b, c1)) (hv : c1.readU16OrU8 wide = .ok (v, c')) :
    b = c.buf.read c.off ∧ immFits wide v = true ∧ c.Holds (encodeImm b wide v) := by
  obtain ⟨hlt, rfl, rfl⟩ := Cursor.readU8_eq_ok.1 hb
  obtain ⟨-, himm, hbytes⟩ := Cursor.readU16OrU8_eq_ok hv
  exact ⟨rfl, himm, Cursor.holds_cons.2 ⟨hlt, rfl, hbytes⟩⟩

/-- Format `F_RM` (R49). -/
theorem readU8_decodeCommon_holds (hb : c.readU8 = .ok (b, c1)) (hk : decodeCommon c1 = .ok (k, c')) :
    b = c.buf.read c.off ∧ k.rmField.wf = true ∧ c.Holds (encodeRm b k.reg k.rmField) := by
  obtain ⟨hlt, rfl, rfl⟩ := Cursor.readU8_eq_ok.1 hb
  obtain ⟨-, hx, hbytes⟩ := decodeCommon_eq_ok hk
  exact ⟨rfl, hx, Cursor.holds_cons.2 ⟨hlt, rfl, hbytes⟩⟩

/-- Format `F_RM_IMM` (R49). -/
theorem readU8_decodeCommon_readU16OrU8_holds (hb : c.readU8 = .ok (b, c1)) (hk : decodeCommon c1 = .ok (k, c2))
    (hv : c2.readU16OrU8 wide = .ok (v, c')) :
    b = c.buf.read c.off ∧ (k.rmField.wf && immFits wide v) = true ∧
      c.Holds (encodeRmImm b k.reg k.rmField wide v) := by
  obtain ⟨hread, hx, hbytes⟩ := readU8_decodeCommon_holds hb hk
  obtain rfl := readU8_decodeCommon_advance hb hk
  obtain ⟨-, himm, himmBytes⟩ := Cursor.readU16OrU8_eq_ok hv
  have hlength : 2 + dispLen k.mod k.rm = (encodeRm b k.reg k.rmField).length :=
    (Laws.length_encodeRm b k.reg k.rmField).symm
  rw [hlength] at himmBytes
  exact ⟨hread, (Bool.and_eq_true _ _).mpr ⟨hx, himm⟩, Cursor.holds_append.2 ⟨hbytes, himmBytes⟩⟩

/-- R47, R53: what the classifier's answer and the read fields say of an opcode byte of the Move family. -/
theorem move_opcode_of_classify (b : Byte) :
    (classify b = some (.move .regMemReg) → b ≠ 0x8C#8 → b ≠ 0x8E#8 → 0b100010#6 ++ bitAt b 1 ++ bitAt b 0 = b) ∧
    (classify b = some (.move .immToReg) → 0b1011#4 ++ bitAt b 3 ++ b.extractLsb' 0 3 = b) ∧
    (classify b = some (.move .immToRegMem) → 0b1100011#7 ++ bitAt b 0 = b) ∧
    (classify b = some (.move .memToAcc) → 0b1010000#7 ++ bitAt b 0 = b) ∧
    (classify b = some (.move .accToMem) → 0b1010001#7 ++ bitAt b 0 = b) := by
  revert b; decide

theorem arithRmReg_opcode_of_classify (h : classify b = some (.arithRegMemReg op)) :
    (arithRmRegInstr op (bitAt b 1) (bitAt b 0) k).opcode = b := by
  cases op with
  | add | sub | cmp =>
    simp only [arithRmRegInstr, Instr.opcode]
    revert b
    decide

theorem arithRmImm_opcode_of_classify (h : classify b = some .arithImmToRegMem) :
    (arithRmImmInstr op (bitAt b 1) (bitAt b 0) x v).opcode = b := by
  cases op with
  | add | sub | cmp =>
    simp only [arithRmImmInstr, Instr.opcode]
    revert b
    decide

theorem arithAcc_opcode_of_classify (h : classify b = some (.arithImmToAcc op)) :
    (arithAccInstr op (bitAt b 0) v).opcode = b := by
  cases op with
  | add | sub | cmp =>
    simp only [arithAccInstr, Instr.opcode]
    revert b
    decide

theorem encode_arithRmRegInstr : encode (arithRmRegInstr op d w k) =
    encodeRm (arithRmRegInstr op d w k).opcode k.reg k.rmField := by
  cases op <;> rfl

/-- R93: the operation's own `reg` code is the one that selected it. -/
theorem encode_arithRmImmInstr (hop : groupOp reg = some op) : encode (arithRmImmInstr op sx w x v) =
    encodeRmImm (arithRmImmInstr op sx w x v).opcode reg x (wideSW sx w) v := by
  unfold groupOp at hop
  split_ifs at hop with hreg hreg hreg <;> cases hop <;> subst hreg <;> rfl

theorem encode_arithAccInstr : encode (arithAccInstr op w v) =
    encodeImm (arithAccInstr op w v).opcode (wideW w) v := by
  cases op <;> rfl

/-- R117: the condition is the four low bits of the opcode byte. -/
theorem encode_jccInstr (j : BitVec 4) (rel8 : Byte) :
    encode (jccInstr j rel8) = encodeRel8 (0b0111#4 ++ j) rel8 := by
  fin_cases j <;> simp [jccInstr] <;> rfl

/-- R134: the loop form is the two low bits of the opcode byte. -/
theorem encode_loopInstr (j : BitVec 2) (rel8 : Byte) :
    encode (loopInstr j rel8) = encodeRel8 (0b111000#6 ++ j) rel8 := by
  fin_cases j <;> simp [loopInstr] <;> rfl

theorem wf_jccInstr (j : BitVec 4) (rel8 : Byte) : (jccInstr j rel8).wf = true := by
  unfold jccInstr
  split <;> rfl

theorem wf_loopInstr (j : BitVec 2) (rel8 : Byte) : (loopInstr j rel8).wf = true := by
  unfold loopInstr
  split <;> rfl

theorem jump_opcode_of_classify (b : Byte) :
    (classify b = some .jcc → 0b0111#4 ++ b.extractLsb' 0 4 = b) ∧
    (classify b = some .loop → 0b111000#6 ++ b.extractLsb' 0 2 = b) := by
  revert b; decide

/-- A decoder that the classifier selected reads a well-formed instruction and no byte but its encoding's. -/
def ReadsEncoding (k : OpClass) (f : Cursor → Except Err (Instr × Cursor)) : Prop :=
  ∀ (c c' : Cursor) (i : Instr), classify (c.buf.read c.off) = some k → f c = .ok (i, c') →
    i.wf = true ∧ c.Holds (encode i)

theorem decodeMove_readsEncoding (form : MoveForm) : ReadsEncoding (.move form) (decodeMove form) := by
  intro c c' i hclass h
  obtain ⟨hregMemReg, himmToReg, himmToRegMem, hmemToAcc, haccToMem⟩ := move_opcode_of_classify (c.buf.read c.off)
  cases form with
  | regMemReg =>
    simp only [decodeMove, Except.bind_eq_ok, Prod.exists] at h
    obtain ⟨b, c1, hb, k, c2, hk, h⟩ := h
    obtain ⟨rfl, hx, hbytes⟩ := readU8_decodeCommon_holds hb hk
    split_ifs at h with hstore hload
    · cases h
      exact ⟨hx, by rwa [hstore] at hbytes⟩
    · cases h
      exact ⟨hx, by rwa [hload] at hbytes⟩
    · cases h
      exact ⟨hx, by rwa [encode, Instr.opcode, hregMemReg hclass hstore hload]⟩
  | immToReg =>
    simp only [decodeMove, Except.bind_eq_ok, Prod.exists] at h
    obtain ⟨b, c1, hb, v, c2, hv, h⟩ := h
    obtain ⟨rfl, himm, hbytes⟩ := readU8_readU16OrU8_holds hb hv
    cases h
    exact ⟨himm, by rwa [encode, Instr.opcode, himmToReg hclass]⟩
  | immToRegMem =>
    simp only [decodeMove, Except.bind_eq_ok, Prod.exists] at h
    obtain ⟨b, c1, hb, k, c2, hk, v, c3, hv, h⟩ := h
    obtain ⟨rfl, hwf, hbytes⟩ := readU8_decodeCommon_readU16OrU8_holds hb hk hv
    cases h
    exact ⟨hwf, by rwa [encode, Instr.opcode, himmToRegMem hclass]⟩
  | memToAcc =>
    simp only [decodeMove, Except.bind_eq_ok, Prod.exists] at h
    obtain ⟨b, c1, hb, v, c2, hv, h⟩ := h
    obtain ⟨rfl, hbytes⟩ := readU8_readU16_holds hb hv
    cases h
    exact ⟨rfl, by rwa [encode, Instr.opcode, hmemToAcc hclass]⟩
  | accToMem =>
    simp only [decodeMove, Except.bind_eq_ok, Prod.exists] at h
    obtain ⟨b, c1, hb, v, c2, hv, h⟩ := h
    obtain ⟨rfl, hbytes⟩ := readU8_readU16_holds hb hv
    cases h
    exact ⟨rfl, by rwa [encode, Instr.opcode, haccToMem hclass]⟩

theorem decodeArithRmReg_readsEncoding (op : ArithOp) :
    ReadsEncoding (.arithRegMemReg op) (decodeArithRmReg op) := by
  intro c c' i hclass h
  simp only [decodeArithRmReg, Except.bind_eq_ok, Prod.exists] at h
  obtain ⟨b, c1, hb, k, c2, hk, h⟩ := h
  obtain ⟨rfl, hx, hbytes⟩ := readU8_decodeCommon_holds hb hk
  cases h
  rw [encode_arithRmRegInstr, arithRmReg_opcode_of_classify hclass]
  exact ⟨by cases op <;> exact hx, hbytes⟩

theorem decodeArithRmImm_readsEncoding : ReadsEncoding .arithImmToRegMem decodeArithRmImm := by
  intro c c' i hclass h
  simp only [decodeArithRmImm, Except.bind_eq_ok, Prod.exists] at h
  obtain ⟨b, c1, hb, k, c2, hk, h⟩ := h
  split at h
  next => cases h
  next op hop =>
    simp only [Except.bind_eq_ok, Prod.exists] at h
    obtain ⟨v, c3, hv, h⟩ := h
    obtain ⟨rfl, hwf, hbytes⟩ := readU8_decodeCommon_readU16OrU8_holds hb hk hv
    cases h
    rw [encode_arithRmImmInstr hop, arithRmImm_opcode_of_classify hclass]
    exact ⟨by cases op <;> exact hwf, hbytes⟩

theorem decodeArithAcc_readsEncoding (op : ArithOp) : ReadsEncoding (.arithImmToAcc op) (decodeArithAcc op) := by
  intro c c' i hclass h
  simp only [decodeArithAcc, Except.bind_eq_ok, Prod.exists] at h
  obtain ⟨b, c1, hb, v, c2, hv, h⟩ := h
  obtain ⟨rfl, himm, hbytes⟩ := readU8_readU16OrU8_holds hb hv
  cases h
  rw [encode_arithAccInstr, arithAcc_opcode_of_classify hclass]
  exact ⟨by cases op <;> exact himm, hbytes⟩

theorem decodeJcc_readsEncoding : ReadsEncoding .jcc decodeJcc := by
  intro c c' i hclass h
  simp only [decodeJcc, Except.bind_eq_ok, Prod.exists] at h
  obtain ⟨b, c1, hb, rel8, c2, hv, h⟩ := h
  obtain ⟨rfl, hbytes⟩ := readU8_readI8_holds hb hv
  cases h
  rw [encode_jccInstr, (jump_opcode_of_classify _).1 hclass]
  exact ⟨wf_jccInstr _ _, hbytes⟩

theorem decodeLoop_readsEncoding : ReadsEncoding .loop decodeLoop := by
  intro c c' i hclass h
  simp only [decodeLoop, Except.bind_eq_ok, Prod.exists] at h
  obtain ⟨b, c1, hb, rel8, c2, hv, h⟩ := h
  obtain ⟨rfl, hbytes⟩ := readU8_readI8_holds hb hv
  cases h
  rw [encode_loopInstr, (jump_opcode_of_classify _).2 hclass]
  exact ⟨wf_loopInstr _ _, hbytes⟩

theorem decodeFamily_readsEncoding (k : OpClass) : ReadsEncoding k (decodeFamily k) := by
  cases k with
  | move form => exact decodeMove_readsEncoding form
  | arithRegMemReg op => exact decodeArithRmReg_readsEncoding op
  | arithImmToAcc op => exact decodeArithAcc_readsEncoding op
  | arithImmToRegMem => exact decodeArithRmImm_readsEncoding
  | jcc => exact decodeJcc_readsEncoding
  | loop => exact decodeLoop_readsEncoding

/-- R31: an answer needs a byte to classify. -/
theorem off_lt_of_decodeInstr (h : decodeInstr c = .ok (i, c')) : c.off < c.len := by
  by_contra hend
  rw [decodeInstr, Cursor.peek_exact_underrun (by omega)] at h
  cases h

/-- What the decoder answers is well-formed, and its encoding is before the cursor. -/
theorem decodeInstr_holds (h : decodeInstr c = .ok (i, c')) : i.wf = true ∧ c.Holds (encode i) := by
  rw [decodeInstr_eq (off_lt_of_decodeInstr h)] at h
  cases hclass : classify (c.buf.read c.off) with
  | none => rw [hclass] at h; cases h
  | some k => rw [hclass] at h; exact decodeFamily_readsEncoding k c c' i hclass h

/-- Settles O5: the decoder moved by the instruction's length, and the bytes it moved past are its encoding. -/
theorem encodeOfDecodeIsBytesConsumed : Obligations.EncodeOfDecodeIsBytesConsumed := by
  intro c c' i h
  obtain ⟨hwf, hinside, hbytes⟩ := decodeInstr_holds h
  obtain rfl := decodeInstr_advance h
  rw [← (Laws.encode_length i).1]
  exact ⟨hwf, rfl, hinside, hbytes⟩

end Sys2Proof.Machine
end

