-- ==== Sys2Proof/Proofs/StepOutcome.lean ====
section
/-! What a step in RUN with a byte left ends in: an error whose payload fits, or the instruction's commit, which
moves the offset by the length formula (R67) inside the buffer. The bound on a run (R144) follows. -/

namespace Sys2Proof.Machine

variable {s t : State} {e : Err}

/-- Settles O29: the phase decides whether a step is enabled, and an enabled one answers a state in each of its
branches. -/
theorem stepAnswersExactlyInRun : Obligations.StepAnswersExactlyInRun := by
  refine fun s => ⟨fun hrun => ?_, fun ⟨t, h⟩ => (step_cases h).1⟩
  by_cases hend : s.off = s.len
  · exact ⟨_, step_run_end hrun hend⟩
  · cases hdecode : decodeInstr s.cursor with
    | ok answer =>
      obtain ⟨r, l, hexec, -, -⟩ := exec_commit answer.1 s
      exact ⟨_, (step_run_ok hrun hend hdecode).trans hexec⟩
    | error e => exact ⟨_, step_run_error hrun hend hdecode⟩

/-- A step that stays in RUN decoded an instruction and committed its record. -/
theorem step_to_run (h : step s = .next t) (hphase : t.phase = .run) :
    s.phase = .run ∧ ∃ i c r l, decodeInstr s.cursor = .ok (i, c) ∧ exec i s = .next t ∧ t = commit r l s ∧
      r.start = s.off ∧ r.len = i.length := by
  obtain ⟨hrun, ⟨-, rfl⟩ | ⟨-, i, c, hdecode, hexec⟩ | ⟨-, e, -, rfl⟩⟩ := step_cases h
  · cases hphase
  · obtain ⟨r, l, hcommit, hstart, hlen⟩ := exec_next_commit hexec
    exact ⟨hrun, i, c, r, l, hdecode, hexec, hcommit, hstart, hlen⟩
  · cases hphase

/-- R67: the length formula is the bytes before the last read, as the format has them, and that read. -/
theorem lengthRule_eq {b : Byte} (hb : acceptedByte b) (m : Byte) :
    lengthRule b m = (if hasModRegRm b then 2 + dispLen (modOf m) (rmOf m) else 1) + tailLen b := by
  unfold lengthRule hasModRegRm tailLen
  unfold acceptedByte at hb
  generalize dispLen (modOf m) (rmOf m) = d
  simp only [Bool.or_eq_true, Bool.and_eq_true, decide_eq_true_eq]
  split_ifs <;> omega

theorem tailLen_le (b : Byte) : tailLen b ≤ 2 := by revert b; decide

theorem hasModRegRm_of_groupByte {b : Byte} (h : groupByte b) : hasModRegRm b = true := by
  revert b; decide

theorem classify_of_groupByte {b : Byte} (h : groupByte b) : classify b = some .arithImmToRegMem := by
  revert b; decide

/-- With a byte left, a step raises an error whose payload fits (R148 to R151), or it stays in RUN and moves the
offset by the length formula, inside the buffer: the checks of R153, one after the other. -/
theorem step_raises_or_advances (hrun : s.phase = .run) (hleft : s.off < s.len) :
    (∃ e, Raises s e ∧ errMatches s e) ∨
    ∃ t, step s = .next t ∧ t.phase = .run ∧ t.off ≤ s.len ∧
      t.off = s.off + lengthRule (s.buf.read s.off) (s.buf.read (s.off + 1)) := by
  obtain ⟨hillegal, hchecks⟩ := firstFailingCheckIsReported s hrun hleft
  by_cases hb : acceptedByte (s.buf.read s.off)
  case neg => exact .inl ⟨_, hillegal hb, rfl, hleft, rfl, (classify_eq_none_iff _).2 hb⟩
  obtain ⟨hmodRegRm, hdisplacement, hoperation, hlastRead, hsuccess⟩ := hchecks hb
  rw [lengthRule_eq hb]
  have hdisp := dispLen_le (modOf (s.buf.read (s.off + 1))) (rmOf (s.buf.read (s.off + 1)))
  have htail := tailLen_le (s.buf.read s.off)
  set b := s.buf.read s.off
  set m := s.buf.read (s.off + 1)
  set d := dispLen (modOf m) (rmOf m)
  have hbadOp : (0x80 ≤ b.toNat ∧ b.toNat ≤ 0x83 ∧ regOf m ≠ 0b000#3 ∧ regOf m ≠ 0b101#3 ∧ regOf m ≠ 0b111#3) ↔
      groupByte b ∧ groupOp (regOf m) = none := by
    rw [groupOp_eq_none_iff, and_assoc]
  rw [hbadOp] at hoperation hlastRead hsuccess
  by_cases hshort : hasModRegRm b = true ∧ s.len < s.off + 2
  case pos =>
    obtain ⟨hrm, hshort⟩ := hshort
    exact .inl ⟨_, hmodRegRm hrm hshort, rfl, by omega, by omega, hshort, .inl rfl, rfl⟩
  by_cases hcut : hasModRegRm b = true ∧ s.len < s.off + 2 + d
  case pos =>
    obtain ⟨hrm, hcut⟩ := hcut
    have hin : s.off + 2 ≤ s.len := Nat.not_lt.1 fun hlt => hshort ⟨hrm, hlt⟩
    exact .inl ⟨_, hdisplacement hrm hin hcut, rfl, by omega, hin, hcut, by omega, rfl⟩
  have hhead : s.off + (if hasModRegRm b then 2 + d else 1) ≤ s.len := by
    split
    next hrm => exact Nat.not_lt.1 fun hlt => hcut ⟨hrm, by omega⟩
    next => exact hleft
  by_cases hbad : groupByte b ∧ groupOp (regOf m) = none
  case pos =>
    obtain ⟨hgroup, hop⟩ := hbad
    have hraises := hoperation hhead ⟨hgroup, hop⟩
    rw [if_pos (hasModRegRm_of_groupByte hgroup)] at hhead
    exact .inl ⟨_, hraises, rfl, by omega, rfl, classify_of_groupByte hgroup, rfl, hop⟩
  set h := if hasModRegRm b then 2 + d else 1 with hh
  have hpos : 1 ≤ h := by
    rw [hh]
    split <;> omega
  by_cases hpast : s.len < s.off + h + tailLen b
  case pos => exact .inl ⟨_, hlastRead hhead hbad hpast, rfl, by omega, hhead, hpast, by omega, rfl⟩
  obtain ⟨t, hstep, hphase, -, hoff⟩ := hsuccess (Nat.not_lt.1 hpast) hbad
  exact .inr ⟨t, hstep, hphase, by omega, by omega⟩

/-- Settles O31: with a byte left the step raises an error whose payload fits, or it does not end in ERROR. -/
theorem raisedErrorPayloads : Obligations.RaisedErrorPayloads := by
  intro s t hoff hstep hphase
  obtain ⟨e, rfl⟩ := step_to_error hstep hphase
  obtain ⟨hrun, hleft, -⟩ := raises_of_step hoff hstep rfl rfl
  obtain ⟨e', hraises, hmatches⟩ | ⟨u, hstep', hrun', -⟩ := step_raises_or_advances hrun hleft
  · obtain rfl : e = e' := by
      have herr := congrArg State.err (Host.Outcome.next.inj (hstep.symm.trans hraises))
      exact Option.some.inj herr
    exact ⟨e, rfl, hmatches⟩
  · obtain rfl : raise e s = u := Host.Outcome.next.inj (hstep.symm.trans hstep')
    cases hrun'

/-- What a step that stays in RUN did to the offset: it moved inside the buffer, by the length formula. -/
theorem step_to_run_off (h : step s = .next t) (hphase : t.phase = .run) :
    t.off ≤ s.len ∧ t.off = s.off + lengthRule (s.buf.read s.off) (s.buf.read (s.off + 1)) := by
  obtain ⟨hrun, i, c, -, -, hdecode, -, -, -, -⟩ := step_to_run h hphase
  have hleft : s.off < s.len := off_lt_of_decodeInstr hdecode
  obtain ⟨e, hraises, -⟩ | ⟨u, hstep, -, hin, hoff⟩ := step_raises_or_advances hrun hleft
  · obtain rfl : t = raise e s := Host.Outcome.next.inj (h.symm.trans hraises)
    cases hphase
  · obtain rfl : t = u := Host.Outcome.next.inj (h.symm.trans hstep)
    exact ⟨hin, hoff⟩

/-- Settles O6: the offset moves by the length formula, which is the length of the instruction decoded (R46). -/
theorem stepAdvancesByLengthFormula : Obligations.StepAdvancesByLengthFormula := by
  intro s t h hphase
  obtain ⟨-, hoff⟩ := step_to_run_off h hphase
  obtain ⟨-, i, c, r, l, -, -, rfl, -, hlen⟩ := step_to_run h hphase
  obtain ⟨-, hlow, hhigh⟩ := Laws.encode_length i
  refine ⟨hoff, ?_, ?_⟩ <;> rw [commit_off, hlen] <;> omega

/-- Settles O50, by induction on the bytes left: a step that stays in RUN takes at least two of them. -/
theorem everyRunTerminates : Obligations.EveryRunTerminates := by
  intro s hrun hoff
  induction hleft : s.len - s.off using Nat.strong_induction_on generalizing s with
  | _ n ih =>
    obtain ⟨t, hstep⟩ := (stepAnswersExactlyInRun s).1 hrun
    cases hphase : t.phase with
    | done => exact ⟨0, s, t, by omega, rfl, hrun, rfl, hstep, .inl hphase⟩
    | error => exact ⟨0, s, t, by omega, rfl, hrun, rfl, hstep, .inr hphase⟩
    | run =>
      obtain ⟨hin, -⟩ := step_to_run_off hstep hphase
      obtain ⟨-, htwo, -⟩ := stepAdvancesByLengthFormula s t hstep hphase
      obtain ⟨-, hlen, -⟩ := step_frame hstep
      obtain ⟨-, i, c, r, l, -, -, hcommit, -, -⟩ := step_to_run hstep hphase
      have hcount : t.count = s.count + 1 := by rw [hcommit, commit_count]
      rw [← hlen] at hin
      obtain ⟨k, u, v, hk, hrun', hu, hucount, hlast, hend⟩ := ih (t.len - t.off) (by omega) t hphase hin rfl
      exact ⟨k + 1, u, v, by omega, (run_succ_of_step hstep k).trans hrun', hu, by omega, hlast, hend⟩

end Sys2Proof.Machine
end

