-- ==== Sys2Proof/Proofs/SegmentAndJumpRules.lean ====
section
/-! The rules of the segment forms of MOV (R83, R84) and of the Jump-or-Loop family (R115 to R138), from the
rule of every instruction at its encoding. -/

namespace Sys2Proof.Machine

/-- Settles O15; the two texts are those of `P_SREG_TEXT`. -/
theorem movSegmentFormsRule : Obligations.MovSegmentFormsRule := fun reg x hx =>
  ⟨encode_ruleHolds (.movSegStore reg x) hx fun _ => rfl, encode_ruleHolds (.movSegLoad reg x) hx fun _ => rfl⟩

/-- Settles O22, from the rule of each conditional jump at its encoding. -/
theorem conditionalJumpRulesLow : Obligations.ConditionalJumpRulesLow := fun rel8 =>
  ⟨encode_ruleHolds (.jo rel8) rfl fun _ => rfl,
    encode_ruleHolds (.jno rel8) rfl fun _ => rfl,
    encode_ruleHolds (.jb rel8) rfl fun _ => rfl,
    encode_ruleHolds (.jnb rel8) rfl fun _ => rfl,
    encode_ruleHolds (.jz rel8) rfl fun _ => rfl,
    encode_ruleHolds (.jnz rel8) rfl fun _ => rfl,
    encode_ruleHolds (.jbe rel8) rfl fun _ => rfl,
    encode_ruleHolds (.ja rel8) rfl fun _ => rfl, by decide⟩

/-- Settles O23, from the rule of each conditional jump at its encoding. -/
theorem conditionalJumpRulesHigh : Obligations.ConditionalJumpRulesHigh := fun rel8 =>
  ⟨encode_ruleHolds (.js rel8) rfl fun _ => rfl,
    encode_ruleHolds (.jns rel8) rfl fun _ => rfl,
    encode_ruleHolds (.jp rel8) rfl fun _ => rfl,
    encode_ruleHolds (.jnp rel8) rfl fun _ => rfl,
    encode_ruleHolds (.jl rel8) rfl fun _ => rfl,
    encode_ruleHolds (.jnl rel8) rfl fun _ => rfl,
    encode_ruleHolds (.jle rel8) rfl fun _ => rfl,
    encode_ruleHolds (.jg rel8) rfl fun _ => rfl, by decide⟩

/-- Settles O24, from the rule of each loop form at its encoding. -/
theorem loopFormRules : Obligations.LoopFormRules := fun rel8 =>
  ⟨encode_ruleHolds (.loopnz rel8) rfl fun _ => rfl,
    encode_ruleHolds (.loopz rel8) rfl fun _ => rfl,
    encode_ruleHolds (.loop rel8) rfl fun _ => rfl,
    encode_ruleHolds (.jcxz rel8) rfl fun _ => rfl, by decide⟩

end Sys2Proof.Machine
end

