-- ==== Sys2Proof/Proofs/LineShape.lean ====
section
/-! The shape of numbers, operands and lines (R12, R19, R74): every text an instruction's line is joined from,
and then every line that a record renders to. -/

namespace Sys2Proof.Machine

variable {p : Params} {l m a b n : String} {d : Bit}

/-- The digits of a decimal text, as `decDigits` writes them. -/
theorem decNat_digits (n : Nat) : ∃ ds, decNat n = String.ofList ds ∧ ds ≠ [] ∧ (∀ c ∈ ds, '0' ≤ c ∧ c ≤ '9') ∧
    ds.foldl (fun v c => 10 * v + (c.toNat - 48)) 0 = n ∧ (ds.head? = some '0' → ds = ['0']) := by
  obtain ⟨ds, hds, hspec⟩ := decDigits_spec (n + 1) n [] (Nat.lt_succ_self n)
  exact ⟨ds, by rw [decNat, hds, List.append_nil], hspec⟩

/-- Settles O9, from the digits of a natural number and the two signs of an integer. -/
theorem decimalTextIsPlain : Obligations.DecimalTextIsPlain := by
  refine ⟨fun n => ?_, fun n => ⟨decInt_natCast n, decInt_neg_natCast⟩⟩
  obtain ⟨ds, htext, hne, hdigits, hvalue, hzero⟩ := decNat_digits n
  rw [htext, String.toList_ofList]
  exact ⟨hdigits, hvalue, hne, fun hhead => by rw [hzero hhead]⟩

/-- R106: a direct address. -/
theorem lineOk_addrText (addr : Word) : lineOk (addrText addr) = true :=
  lineOk_brackets (allPrintable_of_lineOk (lineOk_decNat _))

/-- Settles O11: each addressing mode's text is a register name, or a printable text in brackets. -/
theorem operandTextIsNeverEmpty : Obligations.OperandTextIsNeverEmpty := by
  intro x w
  unfold rmText
  cases resolve x.mod x.rm x.disp w with
  | reg w code => exact lineOk_regText w code
  | direct addr => exact lineOk_addrText addr
  | mem rm disp =>
    have hbase : allPrintable (eaText rm) = true := allPrintable_of_lineOk (lineOk_eaText rm)
    cases disp with
    | none => exact lineOk_brackets hbase
    | some disp =>
      have hshape := lineOk_brackets (allPrintable_append hbase (allPrintable_dispTerm disp))
      rwa [← String.append_assoc] at hshape

/-- The text begins with a lower-case letter. -/
def StartsLower (l : String) : Prop := ∃ c, l.toList.head? = some c ∧ 'a' ≤ c ∧ c ≤ 'z'

theorem StartsLower.append (h : StartsLower a) : StartsLower (a ++ b) := by
  obtain ⟨c, hhead, hc⟩ := h
  exact ⟨c, by rw [String.toList_append, List.head?_append, hhead, Option.some_or], hc⟩

/-- R75: a name of a mnemonic table begins with a lower-case letter. -/
theorem startsLower_of_nameOk (h : nameOk n = true) : StartsLower n := by
  obtain ⟨hne, hall⟩ := (Bool.and_eq_true _ _).mp h
  obtain ⟨c, cs, hcs⟩ := List.exists_cons_of_ne_nil (l := n.toList) (by simpa using hne)
  have hc := List.all_eq_true.1 hall c (by simp [hcs])
  exact ⟨c, by rw [hcs]; rfl, by simpa using hc⟩

theorem lineOk_of_nameOk (h : nameOk n = true) : lineOk n = true := by
  obtain ⟨hne, hall⟩ := (Bool.and_eq_true _ _).mp h
  refine lineOk_of_chars (by simpa using hne) fun c hc => ?_
  have hletter : 'a' ≤ c ∧ c ≤ 'z' := by simpa using List.all_eq_true.1 hall c hc
  refine ⟨?_, ?_⟩
  · simp only [printable, Bool.and_eq_true, decide_eq_true_eq]
    exact ⟨le_trans (by decide) hletter.1, le_trans hletter.2 (by decide)⟩
  · rintro rfl
    exact absurd hletter.1 (by decide)

/-- The shape of an instruction's line (R19, R74, R75). -/
def LineShaped (l : String) : Prop := lineOk l = true ∧ StartsLower l

/-- R74: a mnemonic, two operands and the separators between them. -/
theorem lineShaped_line2 (hm : nameOk m = true) (ha : lineOk a = true) (hb : lineOk b = true) :
    LineShaped (line2 m a b) := by
  have hfirst : lineOk (m ++ " " ++ a) = true := lineOk_join (lineOk_of_nameOk hm) (by decide) ha
  exact ⟨lineOk_join hfirst (by decide) hb, (startsLower_of_nameOk hm).append.append.append.append⟩

theorem lineShaped_lineDir (hm : nameOk m = true) (ha : lineOk a = true) (hb : lineOk b = true) :
    LineShaped (lineDir m d a b) := by
  unfold lineDir
  split
  · exact lineShaped_line2 hm ha hb
  · exact lineShaped_line2 hm hb ha

/-- R116: a name, the target's base and sign, and the magnitude. -/
theorem lineShaped_jumpText (hn : nameOk n = true) (rel8 : Byte) : LineShaped (jumpText n rel8) := by
  have hsign : allPrintable (" $+2" ++ (if 0 ≤ asSigned8 rel8 then "+" else "-")) = true := by
    split <;> decide
  refine ⟨?_, (startsLower_of_nameOk hn).append.append.append⟩
  have hshape := lineOk_join (lineOk_of_nameOk hn) hsign (lineOk_decNat (asSigned8 rel8).natAbs)
  rwa [← String.append_assoc] at hshape

theorem lineOk_accText (w : Bit) : lineOk (accText w) = true := by revert w; decide

theorem nameOk_opName (op : ArithOp) : nameOk (opName op) = true := by cases op <;> decide

/-- R79: a size qualifier before a text. -/
theorem lineOk_sizeText_append (w : Bit) (h : lineOk a = true) : lineOk (sizeText w ++ a) = true := by
  unfold sizeText
  split
  · exact lineOk_join (a := "word") (m := " ") (by decide) (by decide) h
  · exact lineOk_join (a := "byte") (m := " ") (by decide) (by decide) h

theorem lineOk_immText (p : Params) (s w : Bit) (v : Word) : lineOk (immText p s w v) = true := by
  unfold immText
  split
  · cases p.imm8sText with
    | signed => exact lineOk_decInt _
    | wordUnsigned | byteUnsigned => exact lineOk_decNat _
  · exact lineOk_decNat _

theorem lineOk_segRegText (p : Params) (reg : RegCode) : lineOk (segRegText p reg) = true := by
  unfold segRegText
  cases p.sregText with
  | general => exact lineOk_regText _ _
  | segment => exact lineOk_sregName _

theorem lineOk_segRmText (p : Params) (x : RmField) : lineOk (segRmText p x) = true := by
  unfold segRmText
  cases p.sregText with
  | general | segment => exact operandTextIsNeverEmpty _ _

theorem nameOk_jccName (hp : paramsOk p = true) (i : BitVec 4) : nameOk (jccName p i) = true := by
  obtain ⟨hjcc, -⟩ := (Bool.and_eq_true _ _).mp hp
  exact List.all_eq_true.1 hjcc _ (by simp [jccName])

theorem nameOk_loopName (hp : paramsOk p = true) (i : BitVec 2) : nameOk (loopName p i) = true := by
  obtain ⟨-, hloop⟩ := (Bool.and_eq_true _ _).mp hp
  exact List.all_eq_true.1 hloop _ (by simp [loopName])

theorem lineShaped_of_renderMove {r : MoveRecord} (h : renderMove p r = some l) : LineShaped l := by
  have hmov : nameOk "mov" = true := by decide
  unfold renderMove at h
  split at h
  next =>
    split at h <;> cases h
    · exact lineShaped_lineDir hmov (lineOk_segRegText _ _) (lineOk_segRmText _ _)
    · exact lineShaped_lineDir hmov (lineOk_regText _ _) (operandTextIsNeverEmpty _ _)
  next => cases h; exact lineShaped_line2 hmov (lineOk_regText _ _) (lineOk_decNat _)
  next =>
    split at h <;> cases h
    · exact lineShaped_line2 hmov (lineOk_regText _ _) (lineOk_decNat _)
    · exact lineShaped_line2 hmov (operandTextIsNeverEmpty _ _) (lineOk_sizeText_append _ (lineOk_decNat _))
  next => cases h; exact lineShaped_line2 hmov (by decide) (lineOk_addrText _)
  next => cases h; exact lineShaped_line2 hmov (lineOk_addrText _) (by decide)
  next => cases h

theorem lineShaped_of_renderArith {r : ArithRecord} (h : renderArith p r = some l) : LineShaped l := by
  have hop : nameOk (opName r.op) = true := nameOk_opName r.op
  unfold renderArith at h
  split at h
  next => cases h; exact lineShaped_lineDir hop (lineOk_regText _ _) (operandTextIsNeverEmpty _ _)
  next =>
    split at h <;> cases h
    · exact lineShaped_line2 hop (lineOk_regText _ _) (lineOk_immText _ _ _ _)
    · exact lineShaped_line2 hop (lineOk_sizeText_append _ (operandTextIsNeverEmpty _ _)) (lineOk_immText _ _ _ _)
  next => cases h; exact lineShaped_line2 hop (lineOk_accText _) (lineOk_decNat _)
  next => cases h

theorem lineShaped_renderJump (hp : paramsOk p = true) (r : JumpRecord) : LineShaped (renderJump p r) := by
  unfold renderJump
  split
  · exact lineShaped_jumpText (nameOk_jccName hp _) _
  · exact lineShaped_jumpText (nameOk_loopName hp _) _

/-- Whatever record renders to a line, the line has the shape of R19 and R74. -/
theorem lineShaped_of_render (hp : paramsOk p = true) {r : Record} (h : render p r = some l) : LineShaped l := by
  cases r with
  | move r => exact lineShaped_of_renderMove h
  | arithmetic r => exact lineShaped_of_renderArith h
  | jumpOrLoop r => exact Option.some.inj h ▸ lineShaped_renderJump hp r

end Sys2Proof.Machine
end

