-- ==== Sys2Proof/Proofs/RenderedLine.lean ====
section
/-! What a meaning commits: a record, and the line that the record renders to (R146). -/

namespace Sys2Proof.Machine

variable {p : Params} {o rel8 : Byte} {start len : Nat}

/-- R117: the two fields of a conditional jump's opcode byte. -/
theorem jcc_opcode_fields (j : BitVec 4) :
    (0b0111#4 ++ j).extractLsb' 4 4 = 0b0111#4 ∧ (0b0111#4 ++ j).extractLsb' 0 4 = j := by
  revert j; decide

/-- R134: a loop form's opcode byte is no conditional jump's, and its form is the two low bits. -/
theorem loop_opcode_fields (j : BitVec 2) :
    (0b111000#6 ++ j).extractLsb' 4 4 ≠ 0b0111#4 ∧ (0b111000#6 ++ j).extractLsb' 0 2 = j := by
  revert j; decide

/-- R115, R117: the record of a conditional jump renders to the name of its condition. -/
theorem render_jcc (j : BitVec 4) (ho : o = 0b0111#4 ++ j) :
    render p (.jumpOrLoop ⟨o, rel8, start, len⟩) = some (jumpText (jccName p j) rel8) := by
  obtain ⟨hfamily, hindex⟩ := jcc_opcode_fields j
  rw [ho, render, renderJump, if_pos hfamily, hindex]

/-- R115, R134: the record of a loop form renders to the name of its form. -/
theorem render_loop (j : BitVec 2) (ho : o = 0b111000#6 ++ j) :
    render p (.jumpOrLoop ⟨o, rel8, start, len⟩) = some (jumpText (loopName p j) rel8) := by
  obtain ⟨hfamily, hindex⟩ := loop_opcode_fields j
  rw [ho, render, renderJump, if_neg hfamily, hindex]

/-- Every meaning commits the rendering of its own record. -/
theorem exec_commit_render (i : Instr) (s : State) : ∃ r l, exec i s = .next (commit r l s) ∧ r.start = s.off ∧
    r.len = i.length ∧ render s.params r = some l := by
  cases i with
  | movRmReg d w reg x =>
    obtain ⟨hstore, hload⟩ := movRmReg_opcode_ne_segment d w
    exact ⟨_, _, rfl, rfl, rfl, if_neg (not_or.2 ⟨hstore, hload⟩)⟩
  | movRmImm w reg x imm | addRmImm sx w x imm | subRmImm sx w x imm | cmpRmImm sx w x imm =>
    exact ⟨_, _, rfl, rfl, rfl, (apply_ite some _ _ _).symm⟩
  | jo rel8 | jno rel8 | jb rel8 | jnb rel8 | jz rel8 | jnz rel8 | jbe rel8 | ja rel8
  | js rel8 | jns rel8 | jp rel8 | jnp rel8 | jl rel8 | jnl rel8 | jle rel8 | jg rel8 =>
    exact ⟨_, _, rfl, rfl, rfl, render_jcc _ rfl⟩
  | loopnz rel8 | loopz rel8 | loop rel8 | jcxz rel8 => exact ⟨_, _, rfl, rfl, rfl, render_loop _ rfl⟩
  | movSegStore | movSegLoad | movRegImm | movMemToAcc | movAccToMem | addRmReg | subRmReg | cmpRmReg
  | addAccImm | subAccImm | cmpAccImm => exact ⟨_, _, rfl, rfl, rfl, rfl⟩

/-- Settles O37: a meaning commits a record of the encoding's length, and a commit writes nothing else. -/
theorem meaningFrame : Obligations.MeaningFrame := by
  intro i s
  obtain ⟨r, l, hexec, -, hlen⟩ := exec_commit i s
  refine ⟨commit r l s, hexec, rfl, rfl, fun _ => rfl, rfl, rfl, rfl, rfl, ?_⟩
  rw [commit_off, hlen, (Laws.encode_length i).1]

/-- Settles O38: the line committed is the rendering of the record committed. -/
theorem lineIsRenderingOfRecord : Obligations.LineIsRenderingOfRecord := by
  intro i s
  obtain ⟨r, l, hexec, -, -, hrender⟩ := exec_commit_render i s
  exact ⟨commit r l s, r, l, hexec, commit_last s r l, hrender, commit_text s r l⟩

/-- Settles O39: the line is a rendering, and every rendering has the shape. -/
theorem lineShape : Obligations.LineShape := by
  intro i s hparams
  obtain ⟨r, l, hexec, -, -, hrender⟩ := exec_commit_render i s
  obtain ⟨hline, hlower⟩ := lineShaped_of_render hparams hrender
  exact ⟨commit r l s, l, hexec, commit_text s r l, hline, hlower⟩

/-- Settles O25: `reg` of C6-C7 enters the record alone, and with w = 0 the immediate is one unsigned byte for
both values of `s`. -/
theorem uncheckedFieldsChangeNoText : Obligations.UncheckedFieldsChangeNoText :=
  ⟨fun _ _ _ _ _ _ => ⟨_, _, rfl, rfl, rfl, rfl, rfl⟩, fun _ _ _ =>
    ⟨⟨_, _, rfl, rfl, rfl, rfl, rfl⟩, ⟨_, _, rfl, rfl, rfl, rfl, rfl⟩, ⟨_, _, rfl, rfl, rfl, rfl, rfl⟩⟩⟩

end Sys2Proof.Machine
end

