-- ==== Sys2Proof/Proofs/StepDependence.lean ====
section
/-! What a step depends on: not on what earlier instructions left (R23, R26), and, where it decodes an
instruction, on no byte outside it. -/

namespace Sys2Proof.Machine

variable {s s' t : State} {r : Record} {l : String} {m m' : Memory} {a n : Nat}

/-- Settles O26: at an encoding the step is the instruction's meaning, and a decoded instruction's meaning moves
the offset where the decoder's reads ended. -/
theorem stepRunsDecodedInstruction : Obligations.StepRunsDecodedInstruction := by
  refine ⟨fun s i hi hat => step_eq_exec_at_encode hi hat, fun s i c hrun hleft hdecode => ?_⟩
  obtain ⟨r, l, hexec, -, hlen⟩ := exec_commit i s
  refine ⟨step_run_ok hrun hleft hdecode, commit r l s, hexec, ?_⟩
  rw [commit_off, hlen, decodeInstr_advance hdecode, Cursor.advance_off, cursor_off]

/-- A meaning reads the parameters and the offset alone: where two states share them it commits one record and
one line in both. -/
theorem exec_commit_same (i : Instr) (hparams : s.params = s'.params) (hoff : s.off = s'.off) :
    ∃ r l, exec i s = .next (commit r l s) ∧ exec i s' = .next (commit r l s') := by
  obtain ⟨p, buf, len, off, phase, text, count, last, err⟩ := s
  obtain ⟨p', buf', len', off', phase', text', count', last', err'⟩ := s'
  obtain rfl : p = p' := hparams
  obtain rfl : off = off' := hoff
  cases i <;> exact ⟨_, _, rfl, rfl⟩

/-- The text that a commit appends is the line with its newline. -/
theorem commit_text_append : (commit r l s).text = s.text ++ (l ++ "\n") := by
  rw [commit_text, String.append_assoc]

/-- Settles O40: the two states have one cursor, so the decoder answers the same for both, and each of the three
updates writes the same in both. -/
theorem stepIgnoresEarlierOutput : Obligations.StepIgnoresEarlierOutput := by
  intro s s' t hparams hbuf hlen hoff hphase h
  have hcursor : s.cursor = s'.cursor := by simp only [State.cursor, hbuf, hlen, hoff]
  obtain ⟨hrun, hcase⟩ := step_cases h
  have hrun' : s'.phase = .run := hphase ▸ hrun
  have hend_iff : s.off = s.len ↔ s'.off = s'.len := by rw [hoff, hlen]
  obtain ⟨hend, rfl⟩ | ⟨hleft, i, c, hdecode, hexec⟩ | ⟨hleft, e, hdecode, rfl⟩ := hcase
  · exact ⟨finish s', "", 0, step_run_end hrun' (hend_iff.1 hend), hoff.symm, rfl, by simp, by simp, rfl, rfl,
      nofun, nofun⟩
  · obtain ⟨r, l, hcommit, hcommit'⟩ := exec_commit_same i hparams hoff
    obtain rfl : commit r l s = t := Host.Outcome.next.inj (hcommit.symm.trans hexec)
    have hstep' := (step_run_ok hrun' (mt hend_iff.2 hleft) (hcursor ▸ hdecode)).trans hcommit'
    refine ⟨commit r l s', l ++ "\n", 1, hstep', ?_, hphase.symm, commit_text_append, commit_text_append, rfl, rfl,
      fun _ => rfl, fun herror => ?_⟩
    · rw [commit_off, commit_off, hoff]
    · rw [commit_phase, hrun] at herror
      cases herror
  · exact ⟨raise e s', "", 0, step_run_error hrun' (mt hend_iff.2 hleft) (hcursor ▸ hdecode), hoff.symm, rfl,
      by simp, by simp, rfl, rfl, nofun, fun _ => rfl⟩

/-- Two memories that read the same from `a` on have the same bytes there. -/
theorem Memory.slice_congr (h : ∀ k, a ≤ k → k < a + n → m'.read k = m.read k) : m'.slice a n = m.slice a n := by
  induction n generalizing a with
  | zero => rfl
  | succ n ih =>
    rw [Memory.slice_succ, Memory.slice_succ, h a le_rfl (by omega),
      ih fun k hlow hhigh => h k (by omega) (by omega)]

/-- Settles O41: the bytes up to the new offset are the encoding of the instruction decoded, so the other buffer
holds it too, and there the step is the same meaning. -/
theorem stepDependsOnItsOwnBytes : Obligations.StepDependsOnItsOwnBytes := by
  intro s s' t hparams hoff hrun' h hphase hin hbytes
  obtain ⟨hrun, i, c, r, l, hdecode, hexec, hcommit, -, hlen⟩ := step_to_run h hphase
  obtain ⟨hwf, -, hencoding⟩ := decodeInstr_holds hdecode
  have hend : t.off = s.off + (encode i).length := by rw [hcommit, commit_off, hlen, (Laws.encode_length i).1]
  have hslice : s'.buf.slice s.off (encode i).length = s.buf.slice s.off (encode i).length :=
    Memory.slice_congr fun k hlow hhigh => hbytes k hlow (hend ▸ hhigh)
  have hat : AtBytes s' (encode i) := ⟨hrun', by rwa [← hoff, ← hend], by rw [← hoff, hslice]; exact hencoding⟩
  obtain ⟨r', l', hcommit', hsame⟩ := exec_commit_same i hparams hoff
  obtain rfl : commit r' l' s = t := Host.Outcome.next.inj (hcommit'.symm.trans hexec)
  exact ⟨commit r' l' s', l' ++ "\n", (step_eq_exec_at_encode hwf hat).trans hsame, hrun',
    by rw [commit_off, commit_off, hoff], rfl, commit_text_append, commit_text_append⟩

end Sys2Proof.Machine
end

