-- ==== Sys2Proof/Proofs/Load.lean ====
section
/-! Reset and load (R161): when a load is accepted, what it leaves, and that it alone leaves DONE and ERROR. -/

namespace Sys2Proof.Machine

variable {s : State} {bytes : List Byte}

/-- R8: a load within `P_MAX_LEN` is accepted. -/
theorem load_of_lenAllowed (h : lenAllowed s.params bytes.length = true) : load bytes s =
    .next { State.reset with params := s.params, buf := Memory.ofBytes bytes, len := bytes.length } := if_pos h

theorem load_of_not_lenAllowed (h : ¬ lenAllowed s.params bytes.length = true) :
    load bytes s = .refused .bufferTooLong := if_neg h

theorem lenAllowed_of_maxLen_none {p : Params} (h : p.maxLen = none) (n : Nat) : lenAllowed p n = true := by
  rw [lenAllowed, h]

theorem lenAllowed_iff_of_maxLen_some {p : Params} {m : Nat} (h : p.maxLen = some m) (n : Nat) :
    lenAllowed p n = true ↔ n ≤ m := by
  rw [lenAllowed, h]
  exact decide_eq_true_iff

/-- The latched buffer holds the bytes given, from offset 0 on. -/
theorem Memory.slice_ofBytes (bytes : List Byte) : (Memory.ofBytes bytes).slice 0 bytes.length = bytes := by
  have hholds : (cursorOfBytes (bytes ++ [])).Holds bytes := Cursor.holds_ofBytes bytes []
  rw [List.append_nil] at hholds
  exact hholds.2

/-- Settles O43: an accepted load leaves the state after reset with the bytes latched. -/
theorem loadSetsEveryField : Obligations.LoadSetsEveryField := by
  refine fun s bytes h => ⟨_, load_of_lenAllowed h, rfl, Memory.ofBytes_wf bytes, fun a v ha => ?_,
    Memory.slice_ofBytes bytes, rfl, rfl, rfl, rfl, rfl, rfl, rfl⟩
  have hread : (Memory.ofBytes bytes).read a = bytes[a]?.getD Memory.unlisted := Memory.read_ofBytes bytes
  rw [ha] at hread
  exact hread

/-- Settles O28: no step is enabled there, and what an accepted load leaves mentions the parameters and the bytes
alone. -/
theorem terminalPhasesLeftByLoadAlone : Obligations.TerminalPhasesLeftByLoadAlone := by
  refine fun s hphase => ⟨?_, fun bytes h => ?_⟩
  · obtain hphase | hphase := hphase <;> rw [step, hphase]
  · refine ⟨_, load_of_lenAllowed h, rfl, rfl, rfl, Memory.slice_ofBytes bytes, fun s' hparams => ?_⟩
    rw [load_of_lenAllowed (hparams ▸ h), hparams]

/-- Settles O44: a load is refused exactly where the length is not allowed. -/
theorem loadRefusesTooLongBuffer : Obligations.LoadRefusesTooLongBuffer := by
  refine fun s bytes => ⟨fun m hm => ⟨⟨fun hrefused => ?_, fun hlong => ?_⟩, fun hfits => ?_⟩, fun hnone => ?_⟩
  · by_contra hfits
    rw [load_of_lenAllowed ((lenAllowed_iff_of_maxLen_some hm _).2 (by omega))] at hrefused
    cases hrefused
  · exact load_of_not_lenAllowed (mt (lenAllowed_iff_of_maxLen_some hm _).1 (by omega))
  · exact ⟨_, load_of_lenAllowed ((lenAllowed_iff_of_maxLen_some hm _).2 hfits)⟩
  · exact ⟨_, load_of_lenAllowed (lenAllowed_of_maxLen_none hnone _)⟩

/-- Settles O42: each field of the state after reset, as it is defined. -/
theorem resetState : Obligations.ResetState :=
  ⟨rfl, rfl, rfl, rfl, rfl, rfl, rfl, fun _ => rfl, rfl, rfl, rfl, rfl⟩

end Sys2Proof.Machine
end

