-- ==== Sys2Proof/Proofs/Invariant.lean ====
section
/-! The invariant of every reachable state: reset and load establish it, and each of the three updates a step can
make keeps it. -/

namespace Sys2Proof.Machine

variable {s t : State} {e : Err} {r : Record} {l : String}

/-- A state before the first instruction of a buffer has the invariant. -/
theorem inv_at_start {p : Params} {buf : Memory} {len : Nat} (hparams : paramsOk p = true) (hwf : buf.wf = true)
    (hbelow : buf.below len = true) (hallowed : lenAllowed p len = true) :
    Inv { State.reset with params := p, buf := buf, len := len } where
  params_ok := hparams
  buf_wf := hwf
  buf_below := hbelow
  len_allowed := hallowed
  off_le := Nat.zero_le len
  done_at_end := nofun
  err_iff := by simp [State.reset]
  err_ok := nofun
  last_iff := by simp [State.reset]
  last_ok := nofun
  count_le := le_rfl
  text_ok := ⟨[], rfl, nofun, rfl, nofun⟩

/-- Settles O47: the empty buffer and the default tables meet what a state at the start needs. -/
theorem invariantAtReset : Obligations.InvariantAtReset :=
  inv_at_start (p := defaultParams) (buf := []) (len := 0) (by decide) rfl rfl rfl

/-- Settles O48: the latched buffer is canonical, lists nothing past its length, and was within the bound. -/
theorem invariantAfterLoad : Obligations.InvariantAfterLoad := by
  intro s t bytes hparams h
  have hallowed : lenAllowed s.params bytes.length = true := by
    by_contra hlong
    rw [load_of_not_lenAllowed hlong] at h
    cases h
  obtain rfl := load_next_eq h
  exact inv_at_start hparams (Memory.ofBytes_wf bytes) (Memory.ofBytes_below bytes) hallowed

/-- The payload's fit looks at the buffer and the offset, which a raise keeps. -/
theorem errMatches_raise (h : errMatches s e) : errMatches (raise e s) e := by
  cases e <;> exact h

/-- R21: outside ERROR there is no error. -/
theorem Inv.err_eq_none (hinv : Inv s) (h : s.phase ≠ .error) : s.err = none :=
  Option.not_isSome_iff_eq_none.1 (mt hinv.err_iff.1 h)

/-- R139: the end of the stream ends the run with nothing left over. -/
theorem inv_finish (hinv : Inv s) (hrun : s.phase = .run) (hend : s.off = s.len) : Inv (finish s) where
  params_ok := hinv.params_ok
  buf_wf := hinv.buf_wf
  buf_below := hinv.buf_below
  len_allowed := hinv.len_allowed
  off_le := hinv.off_le
  done_at_end _ := hend
  err_iff := by simp [hinv.err_eq_none (by simp [hrun])]
  err_ok e he := by simp [hinv.err_eq_none (by simp [hrun])] at he
  last_iff := hinv.last_iff
  last_ok := hinv.last_ok
  count_le := hinv.count_le
  text_ok := hinv.text_ok

/-- R154: a raise keeps the text and the records, and leaves an error whose payload fits. -/
theorem inv_raise (hinv : Inv s) (he : errMatches s e) : Inv (raise e s) where
  params_ok := hinv.params_ok
  buf_wf := hinv.buf_wf
  buf_below := hinv.buf_below
  len_allowed := hinv.len_allowed
  off_le := hinv.off_le
  done_at_end := nofun
  err_iff := by simp
  err_ok e' he' := by
    obtain rfl : e = e' := Option.some.inj he'
    exact errMatches_raise he
  last_iff := hinv.last_iff
  last_ok := hinv.last_ok
  count_le := hinv.count_le
  text_ok := hinv.text_ok

/-- R141: a commit of a record that starts at the offset, takes 2 to 6 bytes inside the buffer and renders to the
line appended. -/
theorem inv_commit (hinv : Inv s) (hrun : s.phase = .run) (hstart : r.start = s.off)
    (hlen : 2 ≤ r.len ∧ r.len ≤ 6) (hin : s.off + r.len ≤ s.len) (hrender : render s.params r = some l) :
    Inv (commit r l s) where
  params_ok := hinv.params_ok
  buf_wf := hinv.buf_wf
  buf_below := hinv.buf_below
  len_allowed := hinv.len_allowed
  off_le := hin
  done_at_end hdone := by simp [hrun] at hdone
  err_iff := hinv.err_iff
  err_ok e he := by simp [hinv.err_eq_none (by simp [hrun])] at he
  last_iff := by simp
  last_ok r' hr' := by
    obtain rfl : r = r' := Option.some.inj hr'
    exact ⟨by rw [hstart, commit_off], hlen⟩
  count_le := by
    have hcount := hinv.count_le
    rw [commit_count, commit_off]
    omega
  text_ok := by
    obtain ⟨lines, hcount, hlines, htext, -⟩ := hinv.text_ok
    refine ⟨lines ++ [l], by simp [hcount], fun l' hl' => ?_, ?_, fun r' hr' => ?_⟩
    · obtain hl' | hl' := List.mem_append.1 hl'
      · exact hlines l' hl'
      · obtain rfl := List.mem_singleton.1 hl'
        exact (lineShaped_of_render hinv.params_ok hrender).1
    · simp [htext, String.append_assoc]
    · obtain rfl : r = r' := Option.some.inj hr'
      rw [commit_params, hrender, List.getLast?_concat]

/-- Settles O49: each of the three updates that a step can make keeps the invariant. -/
theorem invariantKeptByStep : Obligations.InvariantKeptByStep := by
  intro s t hinv h
  cases hphase : t.phase with
  | run =>
    obtain ⟨hrun, i, c, -, -, -, hexec, -, -, -⟩ := step_to_run h hphase
    obtain ⟨r, l, hcommit, hstart, hlen, hrender⟩ := exec_commit_render i s
    obtain rfl : commit r l s = t := Host.Outcome.next.inj (hcommit.symm.trans hexec)
    obtain ⟨-, hlow, hhigh⟩ := Laws.encode_length i
    rw [← hlen] at hlow hhigh
    exact inv_commit hinv hrun hstart ⟨hlow, hhigh⟩ (step_to_run_off h hphase).1 hrender
  | error =>
    obtain ⟨e, rfl⟩ := step_to_error h hphase
    obtain ⟨e', he', hmatches⟩ := raisedErrorPayloads s _ hinv.off_le h hphase
    obtain rfl : e = e' := Option.some.inj he'
    exact inv_raise hinv hmatches
  | done =>
    obtain ⟨hrun, ⟨hend, rfl⟩ | ⟨-, i, -, -, hexec⟩ | ⟨-, e, -, rfl⟩⟩ := step_cases h
    · exact inv_finish hinv hrun hend
    · obtain ⟨r, l, rfl, -, -⟩ := exec_next_commit hexec
      rw [commit_phase, hrun] at hphase
      cases hphase
    · cases hphase

/-- R151: an error that fits its state has one of the first three codes. -/
theorem errKindCode_of_errMatches (h : errMatches s e) : 1 ≤ errKindCode e ∧ errKindCode e ≤ 3 := by
  cases e with
  | underrun | unsupportedOpcode | invalidOperation => simp [errKindCode]
  | invalidAddressingMode => exact h.elim

/-- Settles O46: the codes as defined; under the invariant an error there has one of the codes 1 to 3. -/
theorem statusCodes : Obligations.StatusCodes := by
  refine ⟨⟨rfl, rfl, rfl, rfl⟩, fun _ _ _ _ => rfl, fun _ _ => rfl, fun _ _ _ => rfl, fun _ => rfl, fun s hinv => ?_⟩
  by_cases herror : s.phase = .error
  · obtain ⟨e, he⟩ := hinv.exists_err herror
    obtain ⟨hpos, hle⟩ := errKindCode_of_errMatches (hinv.err_ok e he)
    rw [he, errCode]
    exact ⟨iff_of_false (by omega) (not_not.2 herror), hle⟩
  · rw [hinv.err_eq_none herror]
    exact ⟨iff_of_true rfl herror, Nat.zero_le 3⟩

end Sys2Proof.Machine
end

