-- ==== Sys2Proof/Proofs/Tables.lean ====
section
/-! The finite tables: the first bytes accepted (R52, R68), the operand names (R83, R101, R102), and encodings
written out (R47, R49). -/

namespace Sys2Proof.Machine

/-- The encoding of a well-formed instruction, with nothing after it, decodes to the instruction. -/
theorem decode_encode (i : Instr) (hi : i.wf = true) : decode (encode i) = .ok (i, (encode i).length) := by
  simpa using (decodeOfEncodeIsInstruction i hi).2 []

/-- Settles O1: each word is the encoding of the instruction it stands for. -/
theorem decodeReadsWordsWrittenOut : Obligations.DecodeReadsWordsWrittenOut :=
  ⟨decode_encode (.movRmReg 0#1 1#1 0b011#3 ⟨0b11#2, 0b001#3, 0#16⟩) (by decide),
    decode_encode (.movRegImm 1#1 0b001#3 12#16) (by decide),
    decode_encode (.movRmReg 1#1 0#1 0b100#3 ⟨0b01#2, 0b000#3, 4#16⟩) (by decide),
    decode_encode (.movSegStore 0b011#3 ⟨0b00#2, 0b110#3, 4096#16⟩) (by decide),
    decode_encode (.addRmReg 0#1 0#1 0b011#3 ⟨0b11#2, 0b000#3, 0#16⟩) (by decide),
    decode_encode (.addRmImm 1#1 1#1 ⟨0b11#2, 0b000#3, 0#16⟩ 5#16) (by decide),
    decode_encode (.cmpAccImm 0#1 128#16) (by decide),
    decode_encode (.movAccToMem 1#1 2554#16) (by decide),
    decode_encode (.jz (-4)) (by decide),
    decode_encode (.jcxz 127#8) (by decide)⟩

theorem illegalByte_iff (b : Byte) : illegalByte b ↔ ¬ acceptedByte b := by
  unfold illegalByte acceptedByte
  omega

/-- Settles O3: the two lists divide the bytes, and the classifier refuses those not accepted. -/
theorem illegalRangesAreTheOtherBytes : Obligations.IllegalRangesAreTheOtherBytes :=
  ⟨fun b => ⟨illegalByte_iff b, (classify_eq_none_iff b).trans (illegalByte_iff b).symm⟩, by decide⟩

/-- Settles O12, each table by evaluation. -/
theorem operandTables : Obligations.OperandTables :=
  ⟨by decide, by decide, by decide, by decide, by decide, by decide⟩

end Sys2Proof.Machine
end
